-- ==== Sys2Proof/Word.lean ====
section
/-! DEFINITION. The two widths of the machine: bytes and words (00_scope.md R4). -/

namespace Sys2Proof

/-- A byte: 8 bits, an unsigned integer 0 .. 255 (R4). -/
abbrev Byte := BitVec 8

/-- A word: 16 bits, an unsigned integer 0 .. 65535 (R4). No value of this machine is signed. -/
abbrev Word := BitVec 16

end Sys2Proof
end

