-- ==== Sys2Proof/Config.lean ====
section
/-! DEFINITION. The parameters of the hardware (00_scope.md R3), each with the value the spec gives it, and the
free values of the concurrent run mode: what 60_exceptions.md leaves to the schedule. -/

namespace Sys2Proof

/-- The parameters of R3. UNVERIFIED, unsafe: the requester calls every number unaudited (93_implementation_defined.md
Part 3), and `OPC_LDM`, `OPC_STM`, `OPC_ADD` and `REGID` beyond A are the spec's own choices (D2, D3, D4; log 1 to 4). -/
structure Config where
  /-- Width of every register in bits (the width of `Word`; `Config.WellFormed` says so). -/
  XLEN : Nat := 16
  /-- Number of register slots: 10, or 11 for a machine where DP has a slot (D4). -/
  NREG : Nat := 10
  /-- Capacity of the code segment in bytes. -/
  CAP_CODE : Nat := 16384
  /-- Capacity of the data segment in bytes. -/
  CAP_DATA : Nat := 8192
  /-- Capacity of the stack segment in bytes. -/
  CAP_STACK : Nat := 40960
  /-- Size of the instruction header in bytes. -/
  HDR : Nat := 2
  /-- Instructions per task of the concurrent mode. -/
  BATCH : Nat := 10
  /-- The five opcode bytes (R96, D2). -/
  OPC_NOP : Byte := 0x00
  OPC_MOV : Byte := 0x01
  OPC_LDM : Byte := 0x02
  OPC_STM : Byte := 0x03
  OPC_ADD : Byte := 0x04
  /-- The identifier byte of each register name, in the listed order A B C D E F H L SP PC DP (R21, D3). -/
  REGID : List Byte := [0x00, 0x01, 0x02, 0x03, 0x04, 0x05, 0x06, 0x07, 0x08, 0x09, 0x0A]
  /-- Whether the host ports `increment` and `decrement` wrap (true) or abort (false) on overflow (D19). -/
  INCDEC_WRAP : Bool := false
  /-- Whether an instruction whose `L` exceeds its operand count is refused (true) or executed (false) (D7). -/
  STRICT_LENGTH : Bool := false
deriving DecidableEq, Repr

/-- The hardware this model is of: every parameter at its default of R3. -/
abbrev hw : Config := {}

/-- A register slot: a valid identifier `0 .. NREG - 1` (10_state.md R20, R24: "a closed, exhaustive set"). -/
abbrev Reg := Fin hw.NREG

/-! The names of the slots (R21). DP, the eleventh name, has none while `NREG` is 10. -/

abbrev Reg.A : Reg := 0
abbrev Reg.B : Reg := 1
abbrev Reg.C : Reg := 2
abbrev Reg.D : Reg := 3
abbrev Reg.E : Reg := 4
/-- A general register: the machine has no flags (R30). -/
abbrev Reg.F : Reg := 5
abbrev Reg.H : Reg := 6
abbrev Reg.L : Reg := 7
/-- SP has no role: it behaves as A (R22). -/
abbrev Reg.SP : Reg := 8
/-- The program counter (R28). -/
abbrev Reg.PC : Reg := 9

/-! Free values (no body: nothing can be proved of their values). Each is applied to the number of free choices drawn so
far, so every draw is a fresh one. -/

/-- Which of the unfinished tasks takes the next atomic action (60_exceptions.md R197, R199: every total order). -/
opaque Config.taskPick : Nat → Nat

/-- Whether a lock acquisition after a task has aborted finds the lock poisoned (R203: a model must allow both). -/
opaque Config.lockPoisoned : Nat → Bool

/-- Which failing task's error `run_concurrent` returns (R201: any of them). -/
opaque Config.failurePick : Nat → Nat

end Sys2Proof
end

