-- ==== Sys2Proof/Syntax.lean ====
section
/-! DEFINITION. The opcode tags and the decoded Instruction value `{opcode, operand_length, operand_bytes}`
(00_scope.md R12, 10_state.md R38), one constructor per row of spec/opcode_table.json. -/

namespace Sys2Proof

/-- Opcode tag: the decoded meaning of the opcode byte (R12). -/
inductive Opcode where
  | nop | mov | ldm | stm | add
deriving DecidableEq, Repr

/-- A decoded instruction: its opcode (the constructor), the header's length byte `L`, and the operand payload. The
operand bytes stay bytes: "the decoder does not look inside the operand bytes" (R175). -/
inductive Instr where
  /-- NOP (R140, R141). -/
  | nop (L : Byte) (ops : List Byte)
  /-- MOV `reg_id, imm8` (R145). -/
  | mov (L : Byte) (ops : List Byte)
  /-- LDM `addr_hi, addr_lo, reg_id` (R150). -/
  | ldm (L : Byte) (ops : List Byte)
  /-- STM `addr_hi, addr_lo, reg_id` (R151). -/
  | stm (L : Byte) (ops : List Byte)
  /-- ADD `addr_hi, addr_lo, reg_id` (R160). -/
  | add (L : Byte) (ops : List Byte)
deriving DecidableEq, Repr

/-- The instruction's opcode tag. -/
def Instr.opcode : Instr → Opcode
  | .nop _ _ => .nop
  | .mov _ _ => .mov
  | .ldm _ _ => .ldm
  | .stm _ _ => .stm
  | .add _ _ => .add

/-- The header's length byte `L`. -/
def Instr.len : Instr → Byte
  | .nop L _ => L
  | .mov L _ => L
  | .ldm L _ => L
  | .stm L _ => L
  | .add L _ => L

/-- The operand payload `ops`. -/
def Instr.ops : Instr → List Byte
  | .nop _ ops => ops
  | .mov _ ops => ops
  | .ldm _ ops => ops
  | .stm _ ops => ops
  | .add _ ops => ops

/-- The instruction with a given tag, length byte and payload. -/
def Opcode.instr (op : Opcode) (L : Byte) (ops : List Byte) : Instr :=
  match op with
  | .nop => .nop L ops
  | .mov => .mov L ops
  | .ldm => .ldm L ops
  | .stm => .stm L ops
  | .add => .add L ops

/-- What the decoder answers where it raises no error (40_fetch_decode_advance.md R125). -/
inductive Decoded where
  /-- The opcode byte is the NOP tag: "signal end-of-stream" (R122); no Instruction value is produced. -/
  | endOfStream
  /-- A decoded instruction, and the bytes after it. -/
  | instr (i : Instr) (rest : List Byte)
deriving DecidableEq, Repr

/-- Why a list of bytes is no instruction. -/
inductive DecodeError where
  /-- The first byte is none of the five opcode bytes (R97, R101). -/
  | invalidOpcode
  /-- The list ends before the instruction does. Never met by the machine: its fetch gathers all bytes first. -/
  | truncated
deriving DecidableEq, Repr

end Sys2Proof
end

