-- ==== Sys2Proof/WellFormed.lean ====
section
/-! DEFINITION. Which Instruction values and which parameter records make sense. -/

namespace Sys2Proof

/-- An Instruction value carries exactly `L` operand bytes (00_scope.md R12: the payload is the `L` bytes after the
header). Every decoded instruction is well-formed. -/
abbrev Instr.WellFormed (i : Instr) : Prop := i.ops.length = i.len.toNat

/-- A parameter record of R3 that some machine could have: 16-bit registers, ten or eleven slots (D4), five distinct
opcode bytes (D2), an injective identifier map for the eleven names (D3), and segments that fill the 16-bit unified
address space (R64). -/
abbrev Config.WellFormed (c : Config) : Prop :=
  c.XLEN = 16 ∧ (c.NREG = 10 ∨ c.NREG = 11) ∧
  [c.OPC_NOP, c.OPC_MOV, c.OPC_LDM, c.OPC_STM, c.OPC_ADD].Nodup ∧
  c.REGID.Nodup ∧ c.REGID.length = 11 ∧
  c.CAP_CODE + c.CAP_DATA + c.CAP_STACK = 65536

end Sys2Proof
end

