-- ==== Sys2Proof/Decode.lean ====
section
/-! DEFINITION. The instruction decoder and encoder over lists of bytes (30_encoding.md), lowest address first, and the
canonical assembler forms of R103. -/

namespace Sys2Proof

/-- `OpDecode` (R97): total on bytes, `none` is `InvalidOpcode`. -/
def opDecode (c : Config) (b : Byte) : Option Opcode :=
  if b = c.OPC_NOP then some .nop
  else if b = c.OPC_MOV then some .mov
  else if b = c.OPC_LDM then some .ldm
  else if b = c.OPC_STM then some .stm
  else if b = c.OPC_ADD then some .add
  else none

/-- The opcode byte of a tag (R96). -/
def opByte (c : Config) : Opcode → Byte
  | .nop => c.OPC_NOP
  | .mov => c.OPC_MOV
  | .ldm => c.OPC_LDM
  | .stm => c.OPC_STM
  | .add => c.OPC_ADD

/-- `RegDecode` (R100): the slot whose name has this identifier byte; `none` is `InvalidRegister`, for a byte that names
nothing and for the name DP while it has no slot. -/
def regDecode (c : Config) (b : Byte) : Option (Fin c.NREG) :=
  match c.REGID.idxOf? b with
  | some n => if h : n < c.NREG then some ⟨n, h⟩ else none
  | none => none

/-- The identifier byte of a slot (R21). -/
def regByte (c : Config) (r : Fin c.NREG) : Byte := c.REGID.getD r 0

/-- How many operand bytes an opcode uses, its canonical `L` (R93; 40_fetch_decode_advance.md R126 `need`). -/
def Opcode.need : Opcode → Nat
  | .nop => 0
  | .mov => 2
  | .ldm => 3
  | .stm => 3
  | .add => 3

/-- The decoder over bytes (R90 to R92, R101, R102, R106): the NOP tag ends the stream before anything else is read; the
opcode is validated before the length byte is read; the operand count is the length byte's and nothing else's. -/
def decode : List Byte → Except DecodeError Decoded
  | [] => .error .truncated
  | b0 :: t =>
    match opDecode hw b0 with
    | none => .error .invalidOpcode
    | some .nop => .ok .endOfStream
    | some op =>
      match t with
      | [] => .error .truncated
      | L :: t' =>
        if t'.length < L.toNat then .error .truncated
        else .ok (.instr (op.instr L (t'.take L.toNat)) (t'.drop L.toNat))

/-- The bytes of an instruction: opcode byte, length byte, operand bytes (R90). -/
def encode (i : Instr) : List Byte := opByte hw i.opcode :: i.len :: i.ops

/-! The canonical instructions of the assembler forms of R103 (there are no pseudo-instructions, R104). -/

/-- `NOP`. -/
def asmNop : Instr := .nop 0 []
/-- `MOV reg, imm8`. -/
def asmMov (r : Reg) (imm : Byte) : Instr := .mov 2 [regByte hw r, imm]
/-- `LDM addr, reg`: the address operand is stored most significant byte first (20_memory.md R65). -/
def asmLdm (addr : Word) (r : Reg) : Instr :=
  .ldm 3 [addr.extractLsb' 8 8, addr.extractLsb' 0 8, regByte hw r]
/-- `STM addr, reg`. -/
def asmStm (addr : Word) (r : Reg) : Instr :=
  .stm 3 [addr.extractLsb' 8 8, addr.extractLsb' 0 8, regByte hw r]
/-- `ADD addr, reg`. -/
def asmAdd (addr : Word) (r : Reg) : Instr :=
  .add 3 [addr.extractLsb' 8 8, addr.extractLsb' 0 8, regByte hw r]

/-- How many bytes a table word stands for: those the table gives it, and as many as its length byte asks for (R90, R102); a
row that gives no length byte has length byte 0. -/
def tableLength (nbits w : Nat) : Nat := max (nbits / 8) (hw.HDR + w % 2 ^ nbits / 256 % 256)

/-- The `n` low bytes of a number, least significant first: bit 0 of the number is bit 0 of the first byte. -/
def lowBytes : Nat → Nat → List Byte
  | 0, _ => []
  | n + 1, w => BitVec.ofNat 8 w :: lowBytes n (w / 256)

/-- The bytes of a table word: the low `nbits` bits of `w`, and zeros above them. -/
def tableBytes (nbits w : Nat) : List Byte := lowBytes (tableLength nbits w) (w % 2 ^ nbits)

/-- The instruction the decoder reads from a table word. End-of-stream is how the decoder meets the table's NOP row
(R140): it is given as the canonical `NOP` (DESIGN CHOICE, safe: log 28). -/
def decodeTableWord (nbits w : Nat) : Option Instr :=
  match decode (tableBytes nbits w) with
  | .ok .endOfStream => some asmNop
  | .ok (.instr i _) => some i
  | .error _ => none

end Sys2Proof
end

