-- ==== Sys2Proof/Machine/State.lean ====
section
/-! DEFINITION. The machine's state as plain data: ten registers and three byte segments (10_state.md), and the run
entry in progress; the errors, the aborts and the model's two refusals. -/

namespace Sys2Proof.Machine

/-- The three segments (10_state.md R33). -/
inductive Segment where
  | code | data | stack
deriving DecidableEq, Repr

/-- Why an operation aborts: it ends with no value and no error value (60_exceptions.md R178, D6). Each reason is safe:
the model stops where the hardware might go on. -/
inductive AbortReason where
  /-- A single-byte access at the address equal to the segment's capacity (20_memory.md R55). Safe. -/
  | edgeAccess
  /-- Executing an instruction whose `L` is less than its opcode's operand count (30_encoding.md R98). Safe. -/
  | shortOperands
  /-- `load_code` that fits the capacity but not from its start address (20_memory.md R62). Safe. -/
  | loadOverrun
  /-- `increment` or `decrement` out of range (10_state.md R26, R27). Safe. -/
  | arithmeticOverflow
deriving DecidableEq, Repr

/-- The error kinds of 60_exceptions.md R172 to R177 and the abort of R178. An error carries its kind and nothing else
(R171). The state an error leaves is the state before the failing step: errors are precise (R182). -/
inductive Fault where
  /-- An address above the segment's capacity: any checked access (R172). The spec's own error. Safe. -/
  | outOfBounds
  /-- A payload larger than the code segment: `load_code` only (R173). The spec's own error. Safe. -/
  | capacityExceeded
  /-- An opcode byte that is none of the five: decode step 2 and the concurrent scan (R174). The spec's own. Safe. -/
  | invalidOpcode
  /-- A register identifier byte without a slot: executing MOV, LDM, STM, ADD (R175). The spec's own error. Safe. -/
  | invalidRegister
  /-- A concurrent task aborted: the join of `run_concurrent` only (R176, R202). The spec's own error. Safe. -/
  | internalFault
  /-- A lock acquisition failed after a task aborted: concurrent mode only (R177, R203). The spec's own. Safe. -/
  | lockPoisoned
  /-- Abnormal end without an error value (R178). Safe: see the reasons. -/
  | abort (reason : AbortReason)
deriving DecidableEq, Repr

/-- What the model gives no meaning to. -/
inductive Refusal where
  /-- An instruction without a meaning yet: exec's own arms only; no arm uses it. Safe. -/
  | notModelled (mnemonic : String)
  /-- `L` above the operand count when the parameter `STRICT_LENGTH` is true (R3, D7); never with its default. Safe. -/
  | nonCanonicalLength
  /-- A host port called while a run entry is executing: the source offers the host no such operation
  (70_reset_and_hazards.md R224, D25). Raised by `Port.call` only. Safe. -/
  | portDuringRun
deriving DecidableEq, Repr

/-- The three segments, each a list of the bytes that differ from what an unlisted address reads as
(`Memory.unlisted`, 0x00: R40), by segment-relative address. -/
structure Memory where
  code : List Host.Cell
  data : List Host.Cell
  stack : List Host.Cell
deriving DecidableEq, Repr

/-- The one canonical form of a segment: addresses strictly rising and below the capacity, no byte 0x00 listed. -/
abbrev canonical (cap : Nat) (cells : List Host.Cell) : Prop :=
  cells.Pairwise (fun x y => x.1 < y.1) ∧ ∀ x ∈ cells, x.1 < cap ∧ x.2 ≠ 0

/-- All three segments are in canonical form. -/
abbrev Memory.wf (m : Memory) : Prop :=
  canonical hw.CAP_CODE m.code ∧ canonical hw.CAP_DATA m.data ∧ canonical hw.CAP_STACK m.stack

/-- The next atomic action of a concurrent task (60_exceptions.md R194, R197), with what the task has read so far. -/
inductive Action where
  /-- Read PC, to decode there (R194). -/
  | fetchPc
  /-- Decode at the address read: one atomic section on Memory (R196). -/
  | decode (p : Word)
  /-- LDM: read the data byte. -/
  | ldmData (addr : Word) (r : Reg) (L : Byte)
  /-- STM: read the register. -/
  | stmReg (addr : Word) (r : Reg) (L : Byte)
  /-- STM: write the data byte. -/
  | stmData (addr : Word) (b : Byte) (L : Byte)
  /-- ADD: read the data byte. -/
  | addData (addr : Word) (r : Reg) (L : Byte)
  /-- ADD: read the register. -/
  | addReg (d : Byte) (r : Reg) (L : Byte)
  /-- MOV, LDM, ADD: write the register. -/
  | writeReg (r : Reg) (v : Word) (L : Byte)
  /-- The advancement: read PC. -/
  | advanceRead (L : Byte)
  /-- The advancement: write PC. -/
  | advanceWrite (v : Word)
deriving DecidableEq, Repr

/-- One task of `run_concurrent`. -/
inductive Task where
  /-- Running: iterations left, the current one among them, and its next action. -/
  | live (left : Nat) (next : Action)
  /-- Ended with success: ten iterations done, or end-of-stream met (R194, R195). -/
  | returned
  /-- Ended with an error value, or with `internalFault` for an abort (R202). -/
  | failed (e : Fault)
deriving DecidableEq, Repr

/-- Which run entry is in progress, or what the last one returned. THE MODEL'S OWN field: the machine stores no run
status (10_state.md R39); it is the value a run entry returns. DESIGN CHOICE, log 19. -/
inductive Run where
  /-- Between host operations: no run entry has been called, or the last one failed (60_exceptions.md R188). -/
  | idle
  /-- Inside `run_sequential` (40_fetch_decode_advance.md R130). -/
  | sequential
  /-- `run_sequential` returned `Halted` (R131). -/
  | halted
  /-- Inside `run_concurrent`, scan phase: the local cursor and count (60_exceptions.md R191, R192). -/
  | scanning (cursor count : Nat)
  /-- Inside `run_concurrent`, dispatch phase: the tasks (R193 to R202). -/
  | concurrent (tasks : List Task)
  /-- `run_concurrent` returned `()` (R201). -/
  | joined
deriving DecidableEq, Repr

/-- The state of the machine. -/
structure State where
  /-- The register file: `NREG` = 10 slots of 16 bits (10_state.md R20). -/
  regs : Vector Word hw.NREG
  /-- The three memory segments (R33). -/
  mem : Memory
  /-- THE MODEL'S OWN: the run entry in progress (log 19). -/
  run : Run
  /-- THE MODEL'S OWN: how many free choices of the concurrent mode have been drawn (log 21). -/
  draws : Nat
deriving DecidableEq, Repr

/-- Construction (10_state.md R40, 70_reset_and_hazards.md R220): zero-filled registers and zero-filled segments. The
model's own fields start at `idle` and 0 (DESIGN CHOICE, log 19 and 21). -/
def State.reset : State where
  regs := Vector.replicate hw.NREG 0
  mem := { code := [], data := [], stack := [] }
  run := .idle
  draws := 0

/-- The result of an operation of the block: a value, or an error or abort (00_scope.md R9). -/
abbrev Result (α : Type) := Except Fault α

end Sys2Proof.Machine
end

