-- ==== Sys2Proof/Machine/Flags.lean ====
section
/-! DEFINITION. The arithmetic of the machine, complete (44_add.md R161). There are no flags and no condition codes
(10_state.md R30): overflow of the wrapping operations leaves no trace, so no flag is computed here. -/

namespace Sys2Proof.Machine

/-- `zext_16` (00_scope.md R7): the word with the byte's value. -/
def zext16 (b : Byte) : Word := BitVec.ofNat 16 b.toNat

/-- `x[r][7:0]` (R161): the low byte; the high byte is dropped silently. -/
def lowByte (v : Word) : Byte := BitVec.ofNat 8 v.toNat

/-- `hi || lo` (R7): the address operand, most significant byte first (30_encoding.md R99). -/
def joinBytes (hi lo : Byte) : Word := BitVec.ofNat 16 (hi.toNat * 256 + lo.toNat)

/-- ADD's update `(v + zext_16(d)) mod 65536` (R160): wraps silently. -/
def addByte (v : Word) (d : Byte) : Word := BitVec.ofNat 16 (v.toNat + d.toNat)

/-- The program-counter advancement `(pc + 2 + L) mod 65536` (40_fetch_decode_advance.md R127): wraps silently. -/
def pcAfter (pc : Word) (L : Byte) : Word := BitVec.ofNat 16 (pc.toNat + hw.HDR + L.toNat)

/-- The sum of the host port `increment` (10_state.md R26): not wrapping unless `wrap`. -/
def incremented (wrap : Bool) (v delta : Word) : Result Word :=
  if v.toNat + delta.toNat ≤ 65535 || wrap then .ok (BitVec.ofNat 16 (v.toNat + delta.toNat))
  else .error (.abort .arithmeticOverflow)

/-- The difference of the host port `decrement` (10_state.md R27): not wrapping unless `wrap`. -/
def decremented (wrap : Bool) (v delta : Word) : Result Word :=
  if delta.toNat ≤ v.toNat || wrap then .ok (BitVec.ofNat 16 (v.toNat + 65536 - delta.toNat))
  else .error (.abort .arithmeticOverflow)

end Sys2Proof.Machine
end

