-- ==== Sys2Proof/Machine/Ops.lean ====
section
/-! DEFINITION. The named operations on memory (20_memory.md), on the register file (10_state.md), the raising of an
error (60_exceptions.md R171), and the common part of executing an instruction (40_fetch_decode_advance.md R126). -/

namespace Sys2Proof.Machine

/-! ## Memory -/

/-- What an unlisted address reads as: every byte is 0x00 after construction (10_state.md R40). -/
def Memory.unlisted : Byte := 0x00

/-- The capacity of a segment in bytes (R33). -/
def Segment.cap : Segment → Nat
  | .code => hw.CAP_CODE
  | .data => hw.CAP_DATA
  | .stack => hw.CAP_STACK

/-- The byte listed at an address. -/
def readCells : List Host.Cell → Nat → Byte
  | [], _ => Memory.unlisted
  | (b, v) :: t, a => if a = b then v else readCells t a

/-- The list without an address. -/
def eraseCell : List Host.Cell → Nat → List Host.Cell
  | [], _ => []
  | (b, v) :: t, a => if a = b then eraseCell t a else (b, v) :: eraseCell t a

/-- The list with one more address, in its place. -/
def insertCell : List Host.Cell → Nat → Byte → List Host.Cell
  | [], a, v => [(a, v)]
  | (b, w) :: t, a, v => if a < b then (a, v) :: (b, w) :: t else (b, w) :: insertCell t a v

/-- A write: the byte an unlisted address reads as is not listed. -/
def writeCells (cells : List Host.Cell) (a : Nat) (v : Byte) : List Host.Cell :=
  if v = Memory.unlisted then eraseCell cells a else insertCell (eraseCell cells a) a v

/-- The listed bytes of a segment. -/
def Memory.cells (m : Memory) : Segment → List Host.Cell
  | .code => m.code
  | .data => m.data
  | .stack => m.stack

/-- The memory with one segment replaced. -/
def Memory.withCells (m : Memory) (g : Segment) (cells : List Host.Cell) : Memory :=
  match g with
  | .code => { m with code := cells }
  | .data => { m with data := cells }
  | .stack => { m with stack := cells }

/-- `seg[a]`: the byte of a segment at a segment-relative address (no check: the operations below make it). -/
def Memory.byte (m : Memory) (g : Segment) (a : Nat) : Byte := readCells (m.cells g) a

/-- `seg[a] <- v` (no check). -/
def Memory.setByte (m : Memory) (g : Segment) (a : Nat) (v : Byte) : Memory :=
  m.withCells g (writeCells (m.cells g) a v)

/-- The `n` bytes from an address up, in ascending order (no check). -/
def Memory.bytes (m : Memory) (g : Segment) : Nat → Nat → List Byte
  | _, 0 => []
  | a, n + 1 => m.byte g a :: m.bytes g (a + 1) n

/-- Bytes stored from an address up, in ascending order (no check). -/
def Memory.setBytes (m : Memory) (g : Segment) (a : Nat) : List Byte → Memory
  | [] => m
  | b :: bs => (m.setByte g a b).setBytes g (a + 1) bs

/-- The single-byte check: a strict greater-than against the capacity (R51); the address equal to it passes that check
and aborts (R55, D5; log 5). -/
def checkByte (g : Segment) (a : Nat) : Result Unit :=
  if a > g.cap then .error .outOfBounds
  else if a = g.cap then .error (.abort .edgeAccess)
  else .ok ()

/-- The slice check, the sum computed without wrap (R58, D8; log 9). -/
def checkSlice (g : Segment) (a n : Nat) : Result Unit :=
  if a > g.cap ∨ a + n > g.cap then .error .outOfBounds else .ok ()

/-- `read_code`, `read_data`, `read_stack` (R56). -/
def Memory.read (m : Memory) (g : Segment) (a : Nat) : Result Byte :=
  match checkByte g a with
  | .error e => .error e
  | .ok _ => .ok (m.byte g a)

/-- `write_code`, `write_data`, `write_stack` (R57). -/
def Memory.write (m : Memory) (g : Segment) (a : Nat) (v : Byte) : Result Memory :=
  match checkByte g a with
  | .error e => .error e
  | .ok _ => .ok (m.setByte g a v)

/-- `read_code_slice` (R60). -/
def Memory.readCodeSlice (m : Memory) (a n : Nat) : Result (List Byte) :=
  match checkSlice .code a n with
  | .error e => .error e
  | .ok _ => .ok (m.bytes .code a n)

/-- `write_data_slice(bytes, addr)` (R61): the check is made before copying. -/
def Memory.writeDataSlice (m : Memory) (bs : List Byte) (a : Nat) : Result Memory :=
  match checkSlice .data a bs.length with
  | .error e => .error e
  | .ok _ => .ok (m.setBytes .data a bs)

/-- `load_code(start_addr, bytes)` (R62): the memory and `bytes_written`. Only the size is checked; a load that overruns
the segment from its start address aborts (D18; log 17). -/
def Memory.loadCode (m : Memory) (a : Nat) (bs : List Byte) : Result (Memory × Nat) :=
  if bs.length > hw.CAP_CODE then .error .capacityExceeded
  else if a + bs.length > hw.CAP_CODE then .error (.abort .loadOverrun)
  else .ok (m.setBytes .code a bs, bs.length)

/-- `read_unified(addr)` (R63, R64, D9; log 10): code, then data, then stack. -/
def Memory.readUnified (m : Memory) (a : Nat) : Result Byte :=
  if a < hw.CAP_CODE then m.read .code a
  else if a < hw.CAP_CODE + hw.CAP_DATA then m.read .data (a - hw.CAP_CODE)
  else if a < hw.CAP_CODE + hw.CAP_DATA + hw.CAP_STACK then m.read .stack (a - (hw.CAP_CODE + hw.CAP_DATA))
  else .error .outOfBounds

/-! ## Registers -/

/-- Register port `read` (10_state.md R24): always succeeds. -/
def State.readReg (s : State) (r : Reg) : Word := s.regs.get r

/-- Register port `write` (R25): replaces all 16 bits of one slot; always succeeds. -/
def State.writeReg (s : State) (r : Reg) (v : Word) : State := { s with regs := s.regs.set r v }

/-- `pc` (R28): slot PC of the register file. -/
def State.pc (s : State) : Word := s.readReg Reg.PC

/-- Register port `increment` (R26). No instruction uses it. -/
def State.increment (s : State) (r : Reg) (delta : Word) : Result State :=
  match incremented hw.INCDEC_WRAP (s.readReg r) delta with
  | .error e => .error e
  | .ok v => .ok (s.writeReg r v)

/-- Register port `decrement` (R27). No instruction uses it. -/
def State.decrement (s : State) (r : Reg) (delta : Word) : Result State :=
  match decremented hw.INCDEC_WRAP (s.readReg r) delta with
  | .error e => .error e
  | .ok v => .ok (s.writeReg r v)

/-- The program-counter advancement on the live PC (40_fetch_decode_advance.md R127, D14; log 15). -/
def State.advance (s : State) (L : Byte) : State := s.writeReg Reg.PC (pcAfter s.pc L)

/-- The state with another memory. -/
def State.withMem (s : State) (m : Memory) : State := { s with mem := m }

/-- The state with another run entry in progress. -/
def State.withRun (s : State) (r : Run) : State := { s with run := r }

/-! ## Errors -/

/-- Raising an error (60_exceptions.md R171, R183), the ONE way an operation fails: nothing is saved, no mode changes,
control goes nowhere; the step ends with the error, which is returned to the host. The state it leaves is the state
before the step (R182). There is no return from an error inside the machine (R184). -/
def raise {α : Type} (e : Fault) : Host.Outcome α Fault Refusal := .fault e

/-- An operation's result as the outcome of a step. -/
def ofResult {α : Type} : Result α → Host.Outcome α Fault Refusal
  | .ok a => .next a
  | .error e => raise e

/-- The numeric label of an error (R179, D15); an abort has none. -/
def Fault.code : Fault → Option Nat
  | .outOfBounds => some 1
  | .capacityExceeded => some 2
  | .invalidOpcode => some 3
  | .invalidRegister => some 4
  | .internalFault => some 5
  | .lockPoisoned => some 6
  | .abort _ => none

end Sys2Proof.Machine
end

