-- ==== Sys2Proof/Machine/Operands.lean ====
section
/-! DEFINITION. The length check and the two operand layouts (30_encoding.md R93 to R100), and the common part of
executing any instruction (40_fetch_decode_advance.md R126). -/

namespace Sys2Proof.Machine

/-- The check of the header's `L` against the operand count (R98, R126): too small aborts; too large is refused if
`strict`, and otherwise passes (R3, D7; log 7, 8). -/
def checkLength (strict : Bool) (need : Nat) (L : Byte) : Host.Outcome Unit Fault Refusal :=
  if L.toNat < need then raise (.abort .shortOperands)
  else if strict && need < L.toNat then .refused .nonCanonicalLength
  else .next ()

/-- A register operand: `RegDecode` of its byte (R100, R175). -/
def regOperand (b : Byte) : Result Reg :=
  match regDecode hw b with
  | some r => .ok r
  | none => .error .invalidRegister

/-- Format RI (R94): `ops[0]` is the register, `ops[1]` the immediate, zero-extended (R99). A payload shorter than its
length byte says is not well-formed and aborts like a short `L` (log 29). -/
def operandsRI : List Byte → Result (Reg × Word)
  | rid :: imm :: _ =>
    match regOperand rid with
    | .error e => .error e
    | .ok r => .ok (r, zext16 imm)
  | _ => .error (.abort .shortOperands)

/-- Format AR (R95): `ops[0]` and `ops[1]` are the data-segment address, high byte first, `ops[2]` the register (R99). The
register is decoded before memory is touched (60_exceptions.md R181, D13; log 14). -/
def operandsAR : List Byte → Result (Word × Reg)
  | hi :: lo :: rid :: _ =>
    match regOperand rid with
    | .error e => .error e
    | .ok r => .ok (joinBytes hi lo, r)
  | _ => .error (.abort .shortOperands)

/-- `execute` (40_fetch_decode_advance.md R126): the length check, the instruction's own effect, and then the
program-counter advancement, which an effect that fails does not reach. -/
def execute (op : Opcode) (L : Byte) (effect : Result State) : Host.Outcome State Fault Refusal :=
  match checkLength hw.STRICT_LENGTH op.need L with
  | .fault e => .fault e
  | .refused r => .refused r
  | .next _ =>
    match effect with
    | .error e => raise e
    | .ok s => .next (s.advance L)

end Sys2Proof.Machine
end

