-- ==== Sys2Proof/Machine/Fetch.lean ====
section
/-! DEFINITION. Fetching an instruction from the code segment, and the decoder port (40_fetch_decode_advance.md R121 to
R125). -/

namespace Sys2Proof.Machine

/-- Whether the decoder reads on after this opcode byte: it does not after the NOP tag (R122), nor after an illegal byte
(R123). -/
def readsOn (b0 : Byte) : Bool :=
  match opDecode hw b0 with
  | none => false
  | some .nop => false
  | some .mov => true
  | some .ldm => true
  | some .stm => true
  | some .add => true

/-- The bytes the decoder reads at a code address, in the order of its steps, each read checked (R121, R124): the opcode
byte; where it reads on, the length byte and the slice of `L` operand bytes. -/
def fetch (m : Memory) (pc : Nat) : Result (List Byte) :=
  match m.read .code pc with
  | .error e => .error e
  | .ok b0 =>
    if readsOn b0 then
      match m.read .code (pc + 1) with
      | .error e => .error e
      | .ok L =>
        match m.readCodeSlice (pc + hw.HDR) L.toNat with
        | .error e => .error e
        | .ok ops => .ok (b0 :: L :: ops)
    else .ok [b0]

/-- The error of a decode. The fetch gathers every byte the decoder asks for, so `truncated` is never met here. -/
def decodeFault : DecodeError → Fault
  | .invalidOpcode => .invalidOpcode
  | .truncated => .outOfBounds

/-- The decoder port `decode(pc)` (R125): reads the code segment and nothing else, writes nothing. -/
def decodeAt (m : Memory) (pc : Nat) : Result Decoded :=
  match fetch m pc with
  | .error e => .error e
  | .ok bytes =>
    match decode bytes with
    | .error e => .error (decodeFault e)
    | .ok d => .ok d

end Sys2Proof.Machine
end

