-- ==== Sys2Proof/Machine/Concurrent.lean ====
section
/-! DEFINITION. The chunked concurrent run mode `run_concurrent` (60_exceptions.md R190 to R205), variant (a) of R205: the
races are reproduced. One step is one header of the scan, one atomic action of one task (R196, R197), or the join. The
order of the tasks' actions is a free value (R199; log 21). -/

namespace Sys2Proof.Machine

/-! ## Scan phase -/

/-- The call of `run_concurrent` (R191): the scan starts at the current PC, with a cursor of its own. -/
def beginConcurrent (s : State) : State := s.withRun (.scanning s.pc.toNat 0)

/-- A task before its first action (R194). -/
def freshTask : Task := .live hw.BATCH .fetchPc

/-- The dispatch (R193): `floor(N / 10)` tasks; the remainder is not run. -/
def dispatchTasks (count : Nat) : List Task := List.replicate (count / hw.BATCH) freshTask

/-- One header of the scan (R192): the cursor is a natural number and never wraps; the opcode byte is validated (D23;
log 22); operand bytes are not fetched. An error ends `run_concurrent` before any task is spawned. -/
def scanTurn (cursor count : Nat) (s : State) : Host.Outcome State Fault Refusal :=
  match s.mem.read .code cursor with
  | .error e => raise e
  | .ok b0 =>
    match opDecode hw b0 with
    | none => raise .invalidOpcode
    | some .nop => .next (s.withRun (.concurrent (dispatchTasks count)))
    | some _ =>
      match s.mem.read .code (cursor + 1) with
      | .error e => raise e
      | .ok L => .next (s.withRun (.scanning (cursor + hw.HDR + L.toNat) (count + 1)))

/-! ## Dispatch phase: the atomic actions -/

/-- The length check of an instruction (30_encoding.md R98), and then what follows it. -/
def afterCheck (op : Opcode) (L : Byte) (first : Result Action) : Host.Outcome Action Fault Refusal :=
  match checkLength hw.STRICT_LENGTH op.need L with
  | .fault e => .fault e
  | .refused r => .refused r
  | .next _ => ofResult first

/-- The first action of executing an instruction (R197), once its length and operands are checked. The checks touch no
shared state, so they are part of the decode action (log 26). -/
def firstAction : Instr → Host.Outcome Action Fault Refusal
  | .nop L _ => afterCheck .nop L (.ok (.advanceRead L))
  | .mov L ops => afterCheck .mov L ((operandsRI ops).map fun (r, imm) => .writeReg r imm L)
  | .ldm L ops => afterCheck .ldm L ((operandsAR ops).map fun (addr, r) => .ldmData addr r L)
  | .stm L ops => afterCheck .stm L ((operandsAR ops).map fun (addr, r) => .stmReg addr r L)
  | .add L ops => afterCheck .add L ((operandsAR ops).map fun (addr, r) => .addData addr r L)

/-- What a task that stops reports: an error value as it is; an abort as `InternalFault` (R201, R202). -/
def taskFault : Fault → Fault
  | .abort _ => .internalFault
  | .outOfBounds => .outOfBounds
  | .capacityExceeded => .capacityExceeded
  | .invalidOpcode => .invalidOpcode
  | .invalidRegister => .invalidRegister
  | .internalFault => .internalFault
  | .lockPoisoned => .lockPoisoned

/-- One atomic action of a task (R194 to R197): what becomes of the task, and of the shared registers and memory. A
failing task stops itself only (R201). -/
def doAction (left : Nat) (a : Action) (s : State) : Host.Outcome (Task × State) Fault Refusal :=
  match a with
  | .fetchPc => .next (.live left (.decode s.pc), s)
  | .decode p =>
    match decodeAt s.mem p.toNat with
    | .error e => .next (.failed (taskFault e), s)
    | .ok .endOfStream => .next (.returned, s)
    | .ok (.instr i _) =>
      match firstAction i with
      | .fault e => .next (.failed (taskFault e), s)
      | .refused r => .refused r
      | .next first => .next (.live left first, s)
  | .ldmData addr r L =>
    match s.mem.read .data addr.toNat with
    | .error e => .next (.failed (taskFault e), s)
    | .ok b => .next (.live left (.writeReg r (zext16 b) L), s)
  | .stmReg addr r L => .next (.live left (.stmData addr (lowByte (s.readReg r)) L), s)
  | .stmData addr b L =>
    match s.mem.write .data addr.toNat b with
    | .error e => .next (.failed (taskFault e), s)
    | .ok m => .next (.live left (.advanceRead L), s.withMem m)
  | .addData addr r L =>
    match s.mem.read .data addr.toNat with
    | .error e => .next (.failed (taskFault e), s)
    | .ok d => .next (.live left (.addReg d r L), s)
  | .addReg d r L => .next (.live left (.writeReg r (addByte (s.readReg r) d) L), s)
  | .writeReg r v L => .next (.live left (.advanceRead L), s.writeReg r v)
  | .advanceRead L => .next (.live left (.advanceWrite (pcAfter s.pc L)), s)
  | .advanceWrite v =>
    .next (if left ≤ 1 then .returned else .live (left - 1) .fetchPc, s.writeReg Reg.PC v)

/-! ## Dispatch phase: the schedule and the join -/

/-- One element of a list, by a free number; with one element there is nothing to choose. -/
def choose {α : Type} (pick : Nat) : List α → Option α
  | [] => none
  | [x] => some x
  | x :: y :: l => (x :: y :: l)[pick % (l.length + 2)]?

/-- The unfinished tasks, each with its place (counted from `k`), its iterations left and its next action. -/
def liveTasks : Nat → List Task → List (Nat × Nat × Action)
  | _, [] => []
  | k, .live left a :: ts => (k, left, a) :: liveTasks (k + 1) ts
  | k, .returned :: ts => liveTasks (k + 1) ts
  | k, .failed _ :: ts => liveTasks (k + 1) ts

/-- The errors of the failed tasks (R201). -/
def taskErrors : List Task → List Fault
  | [] => []
  | .live _ _ :: ts => taskErrors ts
  | .returned :: ts => taskErrors ts
  | .failed e :: ts => e :: taskErrors ts

/-- Whether some task has aborted: what it reports is `InternalFault` (R202), and only an abort is reported so (R176). -/
def anyAborted (ts : List Task) : Bool := (taskErrors ts).contains .internalFault

/-- The join (R200, R201): with no failing task the call returns `()`; otherwise it returns the error of any one of them
(free, log 24). -/
def joinTasks (ts : List Task) (s : State) : Host.Outcome State Fault Refusal :=
  match choose (Config.failurePick s.draws) (taskErrors ts) with
  | none => .next (s.withRun .joined)
  | some e => raise e

/-- The state after a free choice was drawn. -/
def State.drawn (s : State) : State := { s with draws := s.draws + 1 }

/-- One step of the dispatch phase: some unfinished task takes its next atomic action (R199); once a task has aborted, the
lock that action acquires may be found poisoned (R203); with every task finished, the join. -/
def tasksTurn (ts : List Task) (s : State) : Host.Outcome State Fault Refusal :=
  match choose (Config.taskPick s.draws) (liveTasks 0 ts) with
  | none => joinTasks ts s
  | some (k, left, a) =>
    if anyAborted ts && Config.lockPoisoned s.draws then
      .next ((s.withRun (.concurrent (ts.set k (.failed .lockPoisoned)))).drawn)
    else
      match doAction left a s with
      | .fault e => .fault e
      | .refused r => .refused r
      | .next (t, s') => .next ((s'.withRun (.concurrent (ts.set k t))).drawn)

/-! ## What an error or an abort leaves to the host -/

/-- Whether an operation that ended with this error, called in a machine with this run in progress, has aborted: by
itself, or in some task of its dispatch phase (R178, R202). -/
def Fault.aborts (e : Fault) (r : Run) : Bool :=
  match e, r with
  | .abort _, _ => true
  | _, .concurrent ts => anyAborted ts
  | _, _ => false

/-- The machine the host may use again after a step has ended with an error: the one before the step, with no run entry
in progress (R182, R184; log 13). After an abort there is none: "the machine must not be used again without construction"
(R178; log 32). -/
def State.afterFault (s : State) (e : Fault) : Option State :=
  if e.aborts s.run then none else some (s.withRun .idle)

end Sys2Proof.Machine
end

