-- ==== Sys2Proof/Machine/Add.lean ====
section
/-! DEFINITION. ADD (44_add.md R160). -/

namespace Sys2Proof.Machine

/-- ADD's effect: the named register plus the zero-extended data byte, modulo 65536. -/
def addEffect (ops : List Byte) (s : State) : Result State :=
  match operandsAR ops with
  | .error e => .error e
  | .ok (addr, r) =>
    match s.mem.read .data addr.toNat with
    | .error e => .error e
    | .ok d => .ok (s.writeReg r (addByte (s.readReg r) d))

/-- ADD `addr, reg` (R160). -/
def execAdd (L : Byte) (ops : List Byte) (s : State) : Host.Outcome State Fault Refusal :=
  execute .add L (addEffect ops s)

end Sys2Proof.Machine
end

