-- ==== Sys2Proof/Machine/LoadStore.lean ====
section
/-! DEFINITION. LDM and STM (43_ldm_stm.md R150, R151): one byte of the data segment, at the absolute address of the
operand bytes. -/

namespace Sys2Proof.Machine

/-- LDM's effect: the named register becomes the zero-extended data byte. -/
def ldmEffect (ops : List Byte) (s : State) : Result State :=
  match operandsAR ops with
  | .error e => .error e
  | .ok (addr, r) =>
    match s.mem.read .data addr.toNat with
    | .error e => .error e
    | .ok b => .ok (s.writeReg r (zext16 b))

/-- LDM `addr, reg` (R150). -/
def execLdm (L : Byte) (ops : List Byte) (s : State) : Host.Outcome State Fault Refusal :=
  execute .ldm L (ldmEffect ops s)

/-- STM's effect: the data byte becomes the named register's low byte. -/
def stmEffect (ops : List Byte) (s : State) : Result State :=
  match operandsAR ops with
  | .error e => .error e
  | .ok (addr, r) =>
    match s.mem.write .data addr.toNat (lowByte (s.readReg r)) with
    | .error e => .error e
    | .ok m => .ok (s.withMem m)

/-- STM `addr, reg` (R151). -/
def execStm (L : Byte) (ops : List Byte) (s : State) : Host.Outcome State Fault Refusal :=
  execute .stm L (stmEffect ops s)

end Sys2Proof.Machine
end

