-- ==== Sys2Proof/Machine/Mov.lean ====
section
/-! DEFINITION. MOV (42_mov.md R145). -/

namespace Sys2Proof.Machine

/-- MOV's effect: the named register becomes the zero-extended immediate. -/
def movEffect (ops : List Byte) (s : State) : Result State :=
  match operandsRI ops with
  | .error e => .error e
  | .ok (r, imm) => .ok (s.writeReg r imm)

/-- MOV `reg, imm8` (R145). -/
def execMov (L : Byte) (ops : List Byte) (s : State) : Host.Outcome State Fault Refusal :=
  execute .mov L (movEffect ops s)

end Sys2Proof.Machine
end

