-- ==== Sys2Proof/Machine/Nop.lean ====
section
/-! DEFINITION. NOP as met by the executor (41_nop.md R141). As met by the decoder it ends the run (R140): that is
Machine/Sequential.lean's. -/

namespace Sys2Proof.Machine

/-- NOP (R141): no effect of its own; PC advances by `2 + L`. -/
def execNop (L : Byte) (_ops : List Byte) (s : State) : Host.Outcome State Fault Refusal :=
  execute .nop L (.ok s)

end Sys2Proof.Machine
end

