-- ==== Sys2Proof/Machine/Dispatch.lean ====
section
/-! DEFINITION. The executor's dispatch: one arm per instruction (40_fetch_decode_advance.md R126). -/

namespace Sys2Proof.Machine

def exec (i : Instr) (s : State) : Host.Outcome State Fault Refusal :=
  match i with
  | .nop L ops => Sys2Proof.Machine.execNop L ops s
  | .mov L ops => Sys2Proof.Machine.execMov L ops s
  | .ldm L ops => Sys2Proof.Machine.execLdm L ops s
  | .stm L ops => Sys2Proof.Machine.execStm L ops s
  | .add L ops => Sys2Proof.Machine.execAdd L ops s

end Sys2Proof.Machine
end

