-- ==== Sys2Proof/Machine/Sequential.lean ====
section
/-! DEFINITION. The sequential run loop (40_fetch_decode_advance.md R130 to R133). -/

namespace Sys2Proof.Machine

/-- One turn of `run_sequential` (R120, R130): decode at the live PC; at end-of-stream the run halts with nothing changed
(R131, R140); otherwise execute, which also advances PC. An error ends the run (R132). -/
def sequentialTurn (s : State) : Host.Outcome State Fault Refusal :=
  match decodeAt s.mem s.pc.toNat with
  | .error e => raise e
  | .ok .endOfStream => .next (s.withRun .halted)
  | .ok (.instr i _) => exec i (s.withRun .sequential)

/-- How a sequential run ends (R133). -/
inductive RunEnd where
  /-- `Halted`: the call returns `()`. -/
  | halted (s : State)
  /-- `Failed(e)`: the call returns the first error; the state is the one before the failing instruction (R182). -/
  | failed (e : Fault) (s : State)
  /-- An abort: neither `Halted` nor `Failed`, and no state fit for use (R178). -/
  | aborted (reason : AbortReason)
  /-- The model refuses an instruction of the run. -/
  | refused (r : Refusal)
  /-- The run had not ended when the fuel ran out (93_implementation_defined.md U20). -/
  | outOfFuel (s : State)
deriving DecidableEq, Repr

/-- `run_sequential()` under fuel, the turn that halts or fails counted (R130, R132, R133). It starts at whatever PC
holds; a failed run leaves no mark on the machine (60_exceptions.md R184). -/
def runSequential : Nat → State → RunEnd
  | 0, s => .outOfFuel s
  | fuel + 1, s =>
    match sequentialTurn s with
    | .fault (.abort reason) => .aborted reason
    | .fault e => .failed e (s.withRun .idle)
    | .refused r => .refused r
    | .next t => if t.run = .halted then .halted t else runSequential fuel t

end Sys2Proof.Machine
end

