-- ==== Sys2Proof/Machine/Step.lean ====
section
/-! DEFINITION. The step: one turn of the run entry in progress; and the placing of a table word where the next step
fetches. -/

namespace Sys2Proof.Machine

/-- One step. Between runs (`idle`, `halted`, `joined`) it is the first turn of the host's call of `run_sequential`, which
decodes at whatever PC holds (10_state.md R39, 70_reset_and_hazards.md R221; log 19, 20). -/
def step (s : State) : Host.Outcome State Fault Refusal :=
  match s.run with
  | .idle => sequentialTurn s
  | .sequential => sequentialTurn s
  | .halted => sequentialTurn s
  | .joined => sequentialTurn s
  | .scanning cursor count => scanTurn cursor count s
  | .concurrent ts => tasksTurn ts s

/-- Where `State.withFetchWord` puts an instruction of so many bytes: at PC; at 0 where it would not fit there (log 30). -/
def State.fetchHome (s : State) (length : Nat) : Word := if s.pc.toNat + length ≤ hw.CAP_CODE then s.pc else 0

/-- The state with a table word's instruction stored where the next step fetches, inside `run_sequential`. -/
def State.withFetchWord (s : State) (nbits w : Nat) : State :=
  let home := s.fetchHome (tableLength nbits w)
  ((s.writeReg Reg.PC home).withMem (s.mem.setBytes .code home.toNat (tableBytes nbits w))).withRun .sequential

end Sys2Proof.Machine
end

