-- ==== Sys2Proof/Machine/Ports.lean ====
section
/-! DEFINITION. The host's ports: the transaction-level operations of 00_scope.md R10, invoked one at a time between
runs. -/

namespace Sys2Proof.Machine

/-- The operations of R10, with the arguments the spec gives them (host addresses are natural numbers: R8, D10; log 11). -/
inductive Port where
  /-- Construction (70_reset_and_hazards.md R220): a new machine. -/
  | construct
  | loadCode (start : Nat) (bytes : List Byte)
  | writeCode (addr : Nat) (b : Byte)
  | writeData (addr : Nat) (b : Byte)
  | writeStack (addr : Nat) (b : Byte)
  | writeDataSlice (bytes : List Byte) (addr : Nat)
  | readCode (addr : Nat)
  | readData (addr : Nat)
  | readStack (addr : Nat)
  | readCodeSlice (addr n : Nat)
  | readUnified (addr : Nat)
  | read (r : Reg)
  | write (r : Reg) (v : Word)
  | increment (r : Reg) (delta : Word)
  | decrement (r : Reg) (delta : Word)
  /-- The decoder port (40_fetch_decode_advance.md R125). -/
  | decode (pc : Nat)
  /-- The executor port (R126). -/
  | execute (i : Instr)
  /-- The call of `run_sequential` (R130): the steps that follow are its turns. -/
  | runSequential
  /-- The call of `run_concurrent` (60_exceptions.md R190): the steps that follow are its scan, its tasks and its join. -/
  | runConcurrent
deriving DecidableEq, Repr

/-- The single-byte write port of a segment. -/
def Segment.writePort : Segment → Nat → Byte → Port
  | .code => .writeCode
  | .data => .writeData
  | .stack => .writeStack

/-- The single-byte read port of a segment. -/
def Segment.readPort : Segment → Nat → Port
  | .code => .readCode
  | .data => .readData
  | .stack => .readStack

/-- What a port returns to the host besides the state. -/
inductive Answer where
  | unit
  | byte (b : Byte)
  | bytes (bs : List Byte)
  | word (v : Word)
  | count (n : Nat)
  | decoded (d : Decoded)
deriving DecidableEq, Repr

/-- A run entry is executing. -/
def Run.busy : Run → Bool
  | .idle => false
  | .sequential => true
  | .halted => false
  | .scanning _ _ => true
  | .concurrent _ => true
  | .joined => false

/-- A read port: the state is unchanged. -/
def answerRead {α : Type} (s : State) (wrap : α → Answer) : Result α → Host.Outcome (State × Answer) Fault Refusal
  | .error e => raise e
  | .ok a => .next (s, wrap a)

/-- A memory write port. -/
def answerWrite (s : State) : Result Memory → Host.Outcome (State × Answer) Fault Refusal
  | .error e => raise e
  | .ok m => .next (s.withMem m, .unit)

/-- A register port that may abort. -/
def answerState : Result State → Host.Outcome (State × Answer) Fault Refusal
  | .error e => raise e
  | .ok t => .next (t, .unit)

/-- What a port does (R10 and the rule of each operation). -/
def Port.effect (p : Port) (s : State) : Host.Outcome (State × Answer) Fault Refusal :=
  match p with
  | .construct => .next (State.reset, .unit)
  | .loadCode start bytes =>
    match s.mem.loadCode start bytes with
    | .error e => raise e
    | .ok (m, n) => .next (s.withMem m, .count n)
  | .writeCode addr b => answerWrite s (s.mem.write .code addr b)
  | .writeData addr b => answerWrite s (s.mem.write .data addr b)
  | .writeStack addr b => answerWrite s (s.mem.write .stack addr b)
  | .writeDataSlice bytes addr => answerWrite s (s.mem.writeDataSlice bytes addr)
  | .readCode addr => answerRead s .byte (s.mem.read .code addr)
  | .readData addr => answerRead s .byte (s.mem.read .data addr)
  | .readStack addr => answerRead s .byte (s.mem.read .stack addr)
  | .readCodeSlice addr n => answerRead s .bytes (s.mem.readCodeSlice addr n)
  | .readUnified addr => answerRead s .byte (s.mem.readUnified addr)
  | .read r => .next (s, .word (s.readReg r))
  | .write r v => .next (s.writeReg r v, .unit)
  | .increment r delta => answerState (s.increment r delta)
  | .decrement r delta => answerState (s.decrement r delta)
  | .decode pc => answerRead s .decoded (decodeAt s.mem pc)
  | .execute i =>
    match exec i s with
    | .fault e => .fault e
    | .refused r => .refused r
    | .next t => .next (t, .unit)
  | .runSequential => .next (s.withRun .sequential, .unit)
  | .runConcurrent => .next (beginConcurrent s, .unit)

/-- A host's call of a port (R11): refused while a run entry is executing (70_reset_and_hazards.md R224, D25; log 25). -/
def Port.call (p : Port) (s : State) : Host.Outcome (State × Answer) Fault Refusal :=
  if s.run.busy then .refused .portDuringRun else p.effect s

end Sys2Proof.Machine
end

