-- ==== Sys2Proof/Safety.lean ====
section
/-! DEFINITION. What a state is expected to satisfy, and what counts as a safe run, in the terms claims use. -/

namespace Sys2Proof.Machine

/-- A task of a well-formed run: an unfinished one has between 1 and `BATCH` iterations left (60_exceptions.md R194). -/
abbrev Task.wf : Task → Prop
  | .live left _ => 1 ≤ left ∧ left ≤ hw.BATCH
  | .returned => True
  | .failed _ => True

/-- A well-formed run field: every task is. -/
abbrev Run.wf : Run → Prop
  | .idle => True
  | .sequential => True
  | .halted => True
  | .scanning _ _ => True
  | .concurrent ts => ∀ t ∈ ts, t.wf
  | .joined => True

/-- The invariant of the machine: memory in canonical form and inside its capacities, tasks with iterations left. -/
abbrev State.wf (s : State) : Prop := s.mem.wf ∧ s.run.wf

/-- A finished task. -/
abbrev Task.finished : Task → Prop
  | .live _ _ => False
  | .returned => True
  | .failed _ => True

/-- The operand byte that names the register an instruction writes, besides PC's advancement (10_state.md R23): `ops[0]` of
MOV, `ops[2]` of LDM and ADD; NOP and STM write no register. -/
def destination : Instr → Option Byte
  | .nop _ _ => none
  | .mov _ ops => ops[0]?
  | .ldm _ ops => ops[2]?
  | .stm _ _ => none
  | .add _ ops => ops[2]?

/-- No concurrent run is in progress: the next step is a turn of `run_sequential`. -/
def Run.takesTurn : Run → Bool
  | .idle => true
  | .sequential => true
  | .halted => true
  | .scanning _ _ => false
  | .concurrent _ => false
  | .joined => true

/-- A safe state: no number of steps from it ends in an error, an abort or a refusal. -/
def Safe (s : State) : Prop := ∀ k, ∃ t, Sys2Proof.core.run k s = .next t

/-- The operations the source exposes to its driver (00_scope.md R10), construction apart. -/
def Port.ofDriver : Port → Bool
  | .loadCode _ _ => true
  | .writeDataSlice _ _ => true
  | .runSequential => true
  | .runConcurrent => true
  | .construct => false
  | .writeCode _ _ => false
  | .writeData _ _ => false
  | .writeStack _ _ => false
  | .readCode _ => false
  | .readData _ => false
  | .readStack _ => false
  | .readCodeSlice _ _ => false
  | .readUnified _ => false
  | .read _ => false
  | .write _ _ => false
  | .increment _ _ => false
  | .decrement _ _ => false
  | .decode _ => false
  | .execute _ => false

/-- The states a machine can be in that is only ever driven through the interface the source exposes to its driver (R10):
constructed, stepped, called through a driver's port, or returned from a run entry with an error. After an abort no machine is
left: the driver can only construct a new one (60_exceptions.md R178). -/
inductive DriverReachable : State → Prop where
  | construct : DriverReachable State.reset
  | step {s t : State} : DriverReachable s → Sys2Proof.Machine.step s = .next t → DriverReachable t
  | call {s t : State} {p : Port} {a : Answer} :
      DriverReachable s → p.ofDriver = true → p.call s = .next (t, a) → DriverReachable t
  | failed {s t : State} {e : Fault} :
      DriverReachable s → Sys2Proof.Machine.step s = .fault e → s.afterFault e = some t → DriverReachable t

end Sys2Proof.Machine
end

