-- ==== Sys2Proof/Certificates/Slice0/Obligations.lean ====
section
/-! DEFINITION. The statements for the provers, from the numbered rules of spec/. -/

open Sys2Proof Sys2Proof.Machine

/-! ## Encoding -/

/-- 30_encoding.md R97: `OpDecode` gives each of the five opcode bytes its tag and every other byte no tag, for every
parameter record with five distinct opcode bytes. -/
def Obligations.OpcodeBytesDecode : Prop :=
  ∀ c : Config, c.WellFormed →
    (∀ op, opDecode c (opByte c op) = some op) ∧ (∀ b, opDecode c b = none ↔ ∀ op, b ≠ opByte c op)

/-- 30_encoding.md R100: identifier bytes 0x00 to 0x09 name slots 0 to 9, every other byte is `InvalidRegister`; with eleven
slots 0x0A names the eleventh. The numbering and the ten slots are the spec's decisions D3 and D4 (log 2, 3). -/
def Obligations.RegisterBytesDecode : Prop :=
  (∀ b : Byte, b.toNat ≤ 9 → ∃ r : Reg, regDecode hw b = some r ∧ r.val = b.toNat) ∧
  (∀ b : Byte, 10 ≤ b.toNat → regDecode hw b = none ∧ regOperand b = .error .invalidRegister) ∧
  (regDecode { NREG := 11 } 0x0A).map (fun r => r.val) = some 10

/-- 30_encoding.md R103: the five example instructions have the spec's bytes, and those bytes decode to them, NOP's
to end-of-stream (R106). The
opcode and identifier bytes are the spec's decisions D2 and D3 (log 1, 2). -/
def Obligations.SpecExampleBytes : Prop :=
  encode asmNop = [0x00, 0x00] ∧
  encode (asmMov Reg.A 0x01) = [0x01, 0x02, 0x00, 0x01] ∧
  encode (asmLdm 0x0010 Reg.B) = [0x02, 0x03, 0x00, 0x10, 0x01] ∧
  encode (asmStm 0x0010 Reg.A) = [0x03, 0x03, 0x00, 0x10, 0x00] ∧
  encode (asmAdd 0x1FFF Reg.PC) = [0x04, 0x03, 0x1F, 0xFF, 0x09] ∧
  decode [0x00, 0x00] = .ok .endOfStream ∧
  decode [0x01, 0x02, 0x00, 0x01] = .ok (.instr (asmMov Reg.A 0x01) []) ∧
  decode [0x02, 0x03, 0x00, 0x10, 0x01] = .ok (.instr (asmLdm 0x0010 Reg.B) []) ∧
  decode [0x03, 0x03, 0x00, 0x10, 0x00] = .ok (.instr (asmStm 0x0010 Reg.A) []) ∧
  decode [0x04, 0x03, 0x1F, 0xFF, 0x09] = .ok (.instr (asmAdd 0x1FFF Reg.PC) [])

/-- Decoding and encoding are inverse over lists of bytes: the bytes of every well-formed instruction decode to it (a NOP
to end-of-stream), whatever follows; and what decodes to an instruction is that instruction's bytes (30_encoding.md R90 to
R92, R106). -/
def Obligations.DecodeInvertsEncode : Prop :=
  (∀ (i : Instr) (rest : List Byte), i.WellFormed →
    decode (encode i ++ rest) = .ok (if i.opcode = .nop then .endOfStream else .instr i rest)) ∧
  (∀ (bytes rest : List Byte) (i : Instr), decode bytes = .ok (.instr i rest) →
    i.WellFormed ∧ i.opcode ≠ .nop ∧ encode i ++ rest = bytes)

/-- 30_encoding.md R105: an instruction's bytes loaded anywhere in the code segment decode there to exactly its three
fields; a NOP's to end-of-stream. -/
def Obligations.LoadedBytesDecodeBack : Prop :=
  ∀ (m : Memory) (a : Nat) (op : Opcode) (L : Byte) (ops : List Byte),
    ops.length = L.toNat → a + 2 + L.toNat ≤ 16384 →
    ∃ m', m.loadCode a (opByte hw op :: L :: ops) = .ok (m', 2 + L.toNat) ∧
      decodeAt m' a = .ok (if op = .nop then .endOfStream else .instr (op.instr L ops) [])

/-- 40_fetch_decode_advance.md R122: the NOP tag at `pc` is end-of-stream at once, whatever stands after it, the last valid
code address included. -/
def Obligations.TerminatorEndsStream : Prop :=
  (∀ (m : Memory) (pc : Nat), pc < 16384 → m.byte .code pc = 0x00 → decodeAt m pc = .ok .endOfStream) ∧
  ∀ rest : List Byte, decode (0x00 :: rest) = .ok .endOfStream

/-- 40_fetch_decode_advance.md R125: every outcome of `decode(pc)`, and that it depends on the code segment only.
The edge abort and the slice check are the spec's decisions D5 and D8 (log 5, 9). -/
def Obligations.DecodeOutcomes : Prop :=
  ∀ (m : Memory) (pc : Nat),
    (16384 < pc → decodeAt m pc = .error .outOfBounds) ∧
    (pc = 16384 → decodeAt m pc = .error (.abort .edgeAccess)) ∧
    (pc < 16384 → opDecode hw (m.byte .code pc) = none → decodeAt m pc = .error .invalidOpcode) ∧
    (pc < 16384 → m.byte .code pc = 0x00 → decodeAt m pc = .ok .endOfStream) ∧
    (∀ op, op ≠ .nop → m.byte .code pc = opByte hw op →
      (pc = 16383 → decodeAt m pc = .error (.abort .edgeAccess)) ∧
      (pc < 16383 → pc + 2 + (m.byte .code (pc + 1)).toNat ≤ 16384 →
        ∃ ops, decodeAt m pc = .ok (.instr (op.instr (m.byte .code (pc + 1)) ops) []) ∧
          ops.length = (m.byte .code (pc + 1)).toNat ∧
          ∀ k, k < ops.length → ops[k]? = some (m.byte .code (pc + 2 + k))) ∧
      (pc < 16383 → 16384 < pc + 2 + (m.byte .code (pc + 1)).toNat → decodeAt m pc = .error .outOfBounds)) ∧
    (∀ m' : Memory, m'.code = m.code → decodeAt m' pc = decodeAt m pc)

/-! ## Memory -/

/-- 20_memory.md R51, R55, R56: the single-byte check and read, with its off-by-one edge, for every segment; the write's
check is the same. The abort at the edge is the spec's decision D5 (log 5). -/
def Obligations.SingleByteBoundary : Prop :=
  Segment.code.cap = 16384 ∧ Segment.data.cap = 8192 ∧ Segment.stack.cap = 40960 ∧
  ∀ (m : Memory) (g : Segment) (a : Nat) (v : Byte),
    (a < g.cap → m.read g a = .ok (m.byte g a) ∧ ∃ m', m.write g a v = .ok m') ∧
    (a = g.cap → m.read g a = .error (.abort .edgeAccess) ∧ m.write g a v = .error (.abort .edgeAccess)) ∧
    (g.cap < a → m.read g a = .error .outOfBounds ∧ m.write g a v = .error .outOfBounds)

/-- 20_memory.md R57: a write stores the one byte, and no other byte of any segment changes. The abort at the edge is the
spec's decision D5 (log 5). -/
def Obligations.ByteWriteThenRead : Prop :=
  ∀ (m : Memory) (g : Segment) (a : Nat) (v : Byte),
    (a < g.cap → ∃ m', m.write g a v = .ok m' ∧ m'.read g a = .ok v ∧
      ∀ g' b, ¬(g' = g ∧ b = a) → m'.read g' b = m.read g' b) ∧
    (a = g.cap → m.write g a v = .error (.abort .edgeAccess)) ∧
    (g.cap < a → m.write g a v = .error .outOfBounds)

/-- 20_memory.md R58: the slice check; a slice operation never aborts at the edge address (the spec's
decision D8, log 9). -/
def Obligations.SliceBoundary : Prop :=
  ∀ (m : Memory) (a n : Nat) (bytes : List Byte),
    (16384 < a + n → m.readCodeSlice a n = .error .outOfBounds) ∧
    (a + n ≤ 16384 → ∃ bs, m.readCodeSlice a n = .ok bs) ∧
    (8192 < a + bytes.length → m.writeDataSlice bytes a = .error .outOfBounds) ∧
    (a + bytes.length ≤ 8192 → ∃ m', m.writeDataSlice bytes a = .ok m')

/-- 20_memory.md R60: `read_code_slice` answers the bytes in ascending address order (check: decision D8, log 9). -/
def Obligations.CodeSliceRead : Prop :=
  ∀ (m : Memory) (a n : Nat),
    (a > 16384 ∨ a + n > 16384 → m.readCodeSlice a n = .error .outOfBounds) ∧
    (a + n ≤ 16384 → ∃ bs, m.readCodeSlice a n = .ok bs ∧ bs.length = n ∧
      ∀ k, k < n → ∃ b, m.read .code (a + k) = .ok b ∧ bs[k]? = some b)

/-- 20_memory.md R61: `write_data_slice` stores every byte in its place and changes no other (check: decision D8,
log 9). -/
def Obligations.DataSliceWrite : Prop :=
  ∀ (m : Memory) (a : Nat) (bytes : List Byte),
    (a > 8192 ∨ a + bytes.length > 8192 → m.writeDataSlice bytes a = .error .outOfBounds) ∧
    (a + bytes.length ≤ 8192 → ∃ m', m.writeDataSlice bytes a = .ok m' ∧
      (∀ k b, bytes[k]? = some b → m'.read .data (a + k) = .ok b) ∧
      ∀ g c, ¬(g = .data ∧ a ≤ c ∧ c < a + bytes.length) → m'.read g c = m.read g c)

/-- 20_memory.md R62: `load_code` copies every byte to its place and changes no other, or fails by size, or aborts where
it would overrun the segment (the spec's decision D18, log 17). -/
def Obligations.CodeLoad : Prop :=
  ∀ (m : Memory) (a : Nat) (bytes : List Byte),
    (bytes.length > 16384 → m.loadCode a bytes = .error .capacityExceeded) ∧
    (bytes.length ≤ 16384 → a + bytes.length > 16384 → m.loadCode a bytes = .error (.abort .loadOverrun)) ∧
    (a + bytes.length ≤ 16384 → ∃ m', m.loadCode a bytes = .ok (m', bytes.length) ∧
      (∀ k b, bytes[k]? = some b → m'.read .code (a + k) = .ok b) ∧
      ∀ g c, ¬(g = .code ∧ a ≤ c ∧ c < a + bytes.length) → m'.read g c = m.read g c)

/-- 20_memory.md R63: `read_unified` reads code, then data, then stack, and nothing above; it never reaches an edge
address (the spec's decision D9, log 10). -/
def Obligations.UnifiedRead : Prop :=
  ∀ (m : Memory) (a : Nat),
    (a < 16384 → m.readUnified a = .ok (m.byte .code a)) ∧
    (16384 ≤ a → a < 24576 → m.readUnified a = .ok (m.byte .data (a - 16384))) ∧
    (24576 ≤ a → a < 65536 → m.readUnified a = .ok (m.byte .stack (a - 24576))) ∧
    (65536 ≤ a → m.readUnified a = .error .outOfBounds)

/-- The canonical form is one: two well-formed memories that read alike everywhere are equal data. THE MODEL'S CHOICE of
representation for 10_state.md R33's byte arrays (log 34). -/
def Obligations.CanonicalMemoryIsUnique : Prop :=
  ∀ m m' : Memory, m.wf → m'.wf → (∀ g a, m.read g a = m'.read g a) → m = m'

/-! ## Registers -/

/-- 10_state.md R24, R25: the register ports between runs: a read answers the slot and changes nothing, a write replaces the
whole slot and nothing else. -/
def Obligations.RegisterReadWritePorts : Prop :=
  ∀ (s : State) (r : Reg) (v : Word), s.run.busy = false →
    (∃ t, Port.call (.write r v) s = .next (t, .unit) ∧ t.readReg r = v ∧
      (∀ q, q ≠ r → t.readReg q = s.readReg q) ∧ (∀ g a, t.mem.read g a = s.mem.read g a) ∧
      t.run = s.run ∧ t.draws = s.draws) ∧
    Port.call (.read r) s = .next (s, .word (s.readReg r))

/-- 10_state.md R26: `increment` adds without wrapping, and aborts on overflow with the slot unchanged; with the parameter
`INCDEC_WRAP` true its sum would wrap (the spec's decision D19, log 18). -/
def Obligations.IncrementPort : Prop :=
  ∀ (s : State) (r : Reg) (delta : Word), s.run.busy = false →
    ((s.readReg r).toNat + delta.toNat ≤ 65535 → ∃ t, Port.call (.increment r delta) s = .next (t, .unit) ∧
      (t.readReg r).toNat = (s.readReg r).toNat + delta.toNat ∧ (∀ q, q ≠ r → t.readReg q = s.readReg q) ∧
      (∀ g a, t.mem.read g a = s.mem.read g a) ∧ t.run = s.run ∧ t.draws = s.draws) ∧
    (65535 < (s.readReg r).toNat + delta.toNat →
      Port.call (.increment r delta) s = .fault (.abort .arithmeticOverflow)) ∧
    ∃ v, incremented true (s.readReg r) delta = .ok v ∧
      v.toNat = ((s.readReg r).toNat + delta.toNat) % 65536

/-- 10_state.md R27: `decrement` subtracts without wrapping, and aborts on borrow with the slot unchanged; with the
parameter `INCDEC_WRAP` true its difference would wrap (the spec's decision D19, log 18). -/
def Obligations.DecrementPort : Prop :=
  ∀ (s : State) (r : Reg) (delta : Word), s.run.busy = false →
    (delta.toNat ≤ (s.readReg r).toNat → ∃ t, Port.call (.decrement r delta) s = .next (t, .unit) ∧
      (t.readReg r).toNat = (s.readReg r).toNat - delta.toNat ∧ (∀ q, q ≠ r → t.readReg q = s.readReg q) ∧
      (∀ g a, t.mem.read g a = s.mem.read g a) ∧ t.run = s.run ∧ t.draws = s.draws) ∧
    ((s.readReg r).toNat < delta.toNat →
      Port.call (.decrement r delta) s = .fault (.abort .arithmeticOverflow)) ∧
    ∃ v, decremented true (s.readReg r) delta = .ok v ∧
      v.toNat = ((s.readReg r).toNat + 65536 - delta.toNat) % 65536

/-- 44_add.md R161: the arithmetic of the machine as numbers. The ports' aborts and the slice check are the spec's
decisions D19 and D8 (log 18, 9). -/
def Obligations.ArithmeticLaws : Prop :=
  (∀ (v : Word) (d : Byte), (addByte v d).toNat = (v.toNat + d.toNat) % 65536) ∧
  (∀ (pc : Word) (L : Byte), (pcAfter pc L).toNat = (pc.toNat + 2 + L.toNat) % 65536) ∧
  (∀ hi lo : Byte, (joinBytes hi lo).toNat = hi.toNat * 256 + lo.toNat) ∧
  (∀ b : Byte, (zext16 b).toNat = b.toNat) ∧
  (∀ v : Word, (lowByte v).toNat = v.toNat % 256) ∧
  (∀ v d : Word, incremented false v d =
    if v.toNat + d.toNat ≤ 65535 then .ok (v + d) else .error (.abort .arithmeticOverflow)) ∧
  (∀ v d : Word, decremented false v d =
    if d.toNat ≤ v.toNat then .ok (v - d) else .error (.abort .arithmeticOverflow)) ∧
  (∀ (g : Segment) (a n : Nat), checkSlice g a n = .ok () ↔ a + n ≤ g.cap)

/-! ## Reset -/

/-- 10_state.md R40, R41: construction leaves every register and every byte zero, reading them is no fault, and a run
started then begins at code address 0. That a step of the machine after reset is the first turn of such a run is THE MODEL'S
CHOICE (log 19). -/
def Obligations.ResetIsAllZero : Prop :=
  (∀ r : Reg, Port.call (.read r) State.reset = .next (State.reset, .word 0)) ∧
  State.reset.pc = 0 ∧
  (∀ (g : Segment) (a : Nat), a < g.cap → State.reset.mem.read g a = .ok 0x00) ∧
  ∀ m : Memory,
    (∀ e, decodeAt m 0 = .error e → step (State.reset.withMem m) = .fault e) ∧
    (∀ i rest t, decodeAt m 0 = .ok (.instr i rest) → exec i (State.reset.withMem m) = .next t →
      ∃ u, step (State.reset.withMem m) = .next u ∧ u.regs = t.regs ∧ u.mem = t.mem)

/-- The state after reset satisfies the model's invariant (log 34). -/
def Obligations.ResetIsWellFormed : Prop := State.reset.wf

/-! ## The instructions -/

/-- 41_nop.md R141: NOP as met by the executor always completes; only PC changes. No decode gives it a NOP. -/
def Obligations.NopExecutes : Prop :=
  (∀ (L : Byte) (ops : List Byte) (s : State), ∃ t, exec (.nop L ops) s = .next t ∧
    t.pc.toNat = (s.pc.toNat + 2 + L.toNat) % 65536 ∧ (∀ q, q ≠ Reg.PC → t.readReg q = s.readReg q) ∧
    (∀ g a, t.mem.read g a = s.mem.read g a) ∧ t.run = s.run ∧ t.draws = s.draws) ∧
  (∀ (m : Memory) (pc : Nat) (i : Instr) (rest : List Byte),
    decodeAt m pc = .ok (.instr i rest) → i.opcode ≠ .nop)

/-- 42_mov.md R145: MOV's result, frame, errors and encoding, for every register, PC included. That a short `L` aborts, what
a long `L` does, and that PC is advanced from the value just written are the spec's decisions D7 and D14 (log 7, 8, 15). -/
def Obligations.MovExecutes : Prop :=
  (∀ (L rid imm : Byte) (rest : List Byte) (r : Reg) (s : State), 2 ≤ L.toNat → rid.toNat = r.val →
    ∃ t, exec (.mov L (rid :: imm :: rest)) s = .next t ∧
      (r ≠ Reg.PC → (t.readReg r).toNat = imm.toNat ∧ t.pc.toNat = (s.pc.toNat + 2 + L.toNat) % 65536) ∧
      (r = Reg.PC → t.pc.toNat = (imm.toNat + 2 + L.toNat) % 65536) ∧
      (∀ q, q ≠ r → q ≠ Reg.PC → t.readReg q = s.readReg q) ∧
      (∀ g a, t.mem.read g a = s.mem.read g a) ∧ t.run = s.run ∧ t.draws = s.draws) ∧
  (∀ (L rid imm : Byte) (rest : List Byte) (s : State), 2 ≤ L.toNat → 10 ≤ rid.toNat →
    exec (.mov L (rid :: imm :: rest)) s = .fault .invalidRegister) ∧
  (∀ (L : Byte) (ops : List Byte) (s : State), L.toNat < 2 →
    exec (.mov L ops) s = .fault (.abort .shortOperands)) ∧
  (∀ rid imm : Byte, encode (.mov 2 [rid, imm]) = [0x01, 0x02, rid, imm])

/-- 43_ldm_stm.md R150: LDM's result, frame, errors in their priority, and encoding. The edge abort, the
length cases, the priority and the advancement from the live PC are the spec's decisions D5, D7, D13 and D14 (log 5, 7, 8,
14, 15). -/
def Obligations.LdmExecutes : Prop :=
  (∀ (L hi lo rid : Byte) (rest : List Byte) (r : Reg) (s : State),
    3 ≤ L.toNat → rid.toNat = r.val → (joinBytes hi lo).toNat < 8192 →
    ∃ t b, exec (.ldm L (hi :: lo :: rid :: rest)) s = .next t ∧
      s.mem.read .data (joinBytes hi lo).toNat = .ok b ∧
      (r ≠ Reg.PC → (t.readReg r).toNat = b.toNat ∧ t.pc.toNat = (s.pc.toNat + 2 + L.toNat) % 65536) ∧
      (r = Reg.PC → t.pc.toNat = (b.toNat + 2 + L.toNat) % 65536) ∧
      (∀ q, q ≠ r → q ≠ Reg.PC → t.readReg q = s.readReg q) ∧
      (∀ g a, t.mem.read g a = s.mem.read g a) ∧ t.run = s.run ∧ t.draws = s.draws) ∧
  (∀ (L hi lo rid : Byte) (rest : List Byte) (r : Reg) (s : State), 3 ≤ L.toNat → rid.toNat = r.val →
    (8192 < (joinBytes hi lo).toNat → exec (.ldm L (hi :: lo :: rid :: rest)) s = .fault .outOfBounds) ∧
    ((joinBytes hi lo).toNat = 8192 →
      exec (.ldm L (hi :: lo :: rid :: rest)) s = .fault (.abort .edgeAccess))) ∧
  (∀ (L hi lo rid : Byte) (rest : List Byte) (s : State), 3 ≤ L.toNat → 10 ≤ rid.toNat →
    exec (.ldm L (hi :: lo :: rid :: rest)) s = .fault .invalidRegister) ∧
  (∀ (L : Byte) (ops : List Byte) (s : State), L.toNat < 3 →
    exec (.ldm L ops) s = .fault (.abort .shortOperands)) ∧
  (∀ hi lo rid : Byte, encode (.ldm 3 [hi, lo, rid]) = [0x02, 0x03, hi, lo, rid])

/-- 43_ldm_stm.md R151: STM's stored byte, frame, errors in their priority, and encoding. The edge abort, the
length cases, the priority and the advancement from the live PC are the spec's decisions D5, D7, D13 and D14 (log 5, 7, 8,
14, 15). -/
def Obligations.StmExecutes : Prop :=
  (∀ (L hi lo rid : Byte) (rest : List Byte) (r : Reg) (s : State),
    3 ≤ L.toNat → rid.toNat = r.val → (joinBytes hi lo).toNat < 8192 →
    ∃ t, exec (.stm L (hi :: lo :: rid :: rest)) s = .next t ∧
      t.mem.read .data (joinBytes hi lo).toNat = .ok (BitVec.ofNat 8 (s.readReg r).toNat) ∧
      (∀ g a, ¬(g = .data ∧ a = (joinBytes hi lo).toNat) → t.mem.read g a = s.mem.read g a) ∧
      t.pc.toNat = (s.pc.toNat + 2 + L.toNat) % 65536 ∧
      (∀ q, q ≠ Reg.PC → t.readReg q = s.readReg q) ∧ t.run = s.run ∧ t.draws = s.draws) ∧
  (∀ (L hi lo rid : Byte) (rest : List Byte) (r : Reg) (s : State), 3 ≤ L.toNat → rid.toNat = r.val →
    (8192 < (joinBytes hi lo).toNat → exec (.stm L (hi :: lo :: rid :: rest)) s = .fault .outOfBounds) ∧
    ((joinBytes hi lo).toNat = 8192 →
      exec (.stm L (hi :: lo :: rid :: rest)) s = .fault (.abort .edgeAccess))) ∧
  (∀ (L hi lo rid : Byte) (rest : List Byte) (s : State), 3 ≤ L.toNat → 10 ≤ rid.toNat →
    exec (.stm L (hi :: lo :: rid :: rest)) s = .fault .invalidRegister) ∧
  (∀ (L : Byte) (ops : List Byte) (s : State), L.toNat < 3 →
    exec (.stm L ops) s = .fault (.abort .shortOperands)) ∧
  (∀ hi lo rid : Byte, encode (.stm 3 [hi, lo, rid]) = [0x03, 0x03, hi, lo, rid])

/-- 44_add.md R160: ADD's wrapping sum, frame, errors in their priority, and encoding. The edge abort, the
length cases, the priority and the advancement from the live PC are the spec's decisions D5, D7, D13 and D14 (log 5, 7, 8,
14, 15). -/
def Obligations.AddExecutes : Prop :=
  (∀ (L hi lo rid : Byte) (rest : List Byte) (r : Reg) (s : State),
    3 ≤ L.toNat → rid.toNat = r.val → (joinBytes hi lo).toNat < 8192 →
    ∃ t d, exec (.add L (hi :: lo :: rid :: rest)) s = .next t ∧
      s.mem.read .data (joinBytes hi lo).toNat = .ok d ∧
      (r ≠ Reg.PC → (t.readReg r).toNat = ((s.readReg r).toNat + d.toNat) % 65536 ∧
        t.pc.toNat = (s.pc.toNat + 2 + L.toNat) % 65536) ∧
      (r = Reg.PC → t.pc.toNat = (s.pc.toNat + d.toNat + 2 + L.toNat) % 65536) ∧
      (∀ q, q ≠ r → q ≠ Reg.PC → t.readReg q = s.readReg q) ∧
      (∀ g a, t.mem.read g a = s.mem.read g a) ∧ t.run = s.run ∧ t.draws = s.draws) ∧
  (∀ (L hi lo rid : Byte) (rest : List Byte) (r : Reg) (s : State), 3 ≤ L.toNat → rid.toNat = r.val →
    (8192 < (joinBytes hi lo).toNat → exec (.add L (hi :: lo :: rid :: rest)) s = .fault .outOfBounds) ∧
    ((joinBytes hi lo).toNat = 8192 →
      exec (.add L (hi :: lo :: rid :: rest)) s = .fault (.abort .edgeAccess))) ∧
  (∀ (L hi lo rid : Byte) (rest : List Byte) (s : State), 3 ≤ L.toNat → 10 ≤ rid.toNat →
    exec (.add L (hi :: lo :: rid :: rest)) s = .fault .invalidRegister) ∧
  (∀ (L : Byte) (ops : List Byte) (s : State), L.toNat < 3 →
    exec (.add L ops) s = .fault (.abort .shortOperands)) ∧
  (∀ hi lo rid : Byte, encode (.add 3 [hi, lo, rid]) = [0x04, 0x03, hi, lo, rid])

/-- 30_encoding.md R98: an `L` below the operand count aborts; an `L` above it executes as the canonical instruction does,
with PC advanced by the extra bytes as well; the extra bytes are fetched, and can fail the fetch (the spec's
decision D7, log 7 and 8). -/
def Obligations.NonCanonicalLength : Prop :=
  (∀ (op : Opcode) (L : Byte) (ops : List Byte) (s : State), L.toNat < op.need →
    exec (op.instr L ops) s = .fault (.abort .shortOperands)) ∧
  (∀ (op : Opcode) (L : Byte) (ops : List Byte) (s : State), op.need ≤ L.toNat → ops.length = L.toNat →
    (∀ u, exec (op.instr (BitVec.ofNat 8 op.need) (ops.take op.need)) s = .next u →
      exec (op.instr L ops) s = .next (u.writeReg Reg.PC (u.pc + BitVec.ofNat 16 (L.toNat - op.need)))) ∧
    (∀ e, exec (op.instr (BitVec.ofNat 8 op.need) (ops.take op.need)) s = .fault e →
      exec (op.instr L ops) s = .fault e)) ∧
  (∀ (m : Memory) (pc : Nat) (op : Opcode), op ≠ .nop → pc < 16383 → m.byte .code pc = opByte hw op →
    16384 < pc + 2 + (m.byte .code (pc + 1)).toNat → decodeAt m pc = .error .outOfBounds)

/-- 10_state.md R23: an instruction that completes changes no register but its destination and PC, and no memory unless it
is STM. -/
def Obligations.OnlyDestinationChanges : Prop :=
  ∀ (i : Instr) (s t : State), exec i s = .next t →
    (∀ q : Reg, q ≠ Reg.PC → destination i ≠ some (regByte hw q) → t.readReg q = s.readReg q) ∧
    (i.opcode ≠ .stm → ∀ g a, t.mem.read g a = s.mem.read g a) ∧ t.run = s.run ∧ t.draws = s.draws

/-- 40_fetch_decode_advance.md R127: whatever the opcode, PC ends `2 + L` after the value PC holds after the instruction's
own effect: its old value, unless PC is the destination (the spec's decision D14, log 15). -/
def Obligations.PcAdvancesByLength : Prop :=
  ∀ (i : Instr) (s t : State), exec i s = .next t →
    (destination i ≠ some (regByte hw Reg.PC) → t.pc.toNat = (s.pc.toNat + 2 + i.len.toNat) % 65536) ∧
    (∀ L rid imm rest, i = .mov L (rid :: imm :: rest) → rid = regByte hw Reg.PC →
      t.pc.toNat = (imm.toNat + 2 + L.toNat) % 65536) ∧
    (∀ L hi lo rid rest b, i = .ldm L (hi :: lo :: rid :: rest) → rid = regByte hw Reg.PC →
      s.mem.read .data (joinBytes hi lo).toNat = .ok b → t.pc.toNat = (b.toNat + 2 + L.toNat) % 65536) ∧
    (∀ L hi lo rid rest b, i = .add L (hi :: lo :: rid :: rest) → rid = regByte hw Reg.PC →
      s.mem.read .data (joinBytes hi lo).toNat = .ok b →
      t.pc.toNat = ((s.pc.toNat + b.toNat) % 65536 + 2 + L.toNat) % 65536)

/-- 40_fetch_decode_advance.md R129: control transfer through PC: where each canonical instruction that names PC leaves
it, and the byte STM stores of it (the spec's decision D14, log 15). -/
def Obligations.ControlTransferThroughPc : Prop :=
  (∀ (imm : Byte) (s : State), ∃ t, exec (asmMov Reg.PC imm) s = .next t ∧ t.pc.toNat = imm.toNat + 4) ∧
  (∀ (addr : Word) (s : State), addr.toNat < 8192 → ∃ t b, s.mem.read .data addr.toNat = .ok b ∧
    exec (asmLdm addr Reg.PC) s = .next t ∧ t.pc.toNat = b.toNat + 5) ∧
  (∀ (addr : Word) (s : State), addr.toNat < 8192 → ∃ t b, s.mem.read .data addr.toNat = .ok b ∧
    exec (asmAdd addr Reg.PC) s = .next t ∧ t.pc.toNat = (s.pc.toNat + b.toNat + 5) % 65536) ∧
  (∀ (addr : Word) (s : State), addr.toNat < 8192 → ∃ t, exec (asmStm addr Reg.PC) s = .next t ∧
    t.mem.read .data addr.toNat = .ok (BitVec.ofNat 8 s.pc.toNat) ∧ t.pc.toNat = (s.pc.toNat + 5) % 65536)

/-- 43_ldm_stm.md R151, 20_memory.md R70: an STM and then an LDM of the same address give the low byte stored,
zero-extended, in any register but PC. -/
def Obligations.StoreThenLoad : Prop :=
  ∀ (addr : Word) (r q : Reg) (s : State), addr.toNat < 8192 → q ≠ Reg.PC →
    ∃ t u, exec (asmStm addr r) s = .next t ∧ exec (asmLdm addr q) t = .next u ∧
      (u.readReg q).toNat = (s.readReg r).toNat % 256

/-- 60_exceptions.md R172 to R177: the errors and aborts a turn of the sequential loop can end in, and no refusal. The aborts
are the spec's decision D6 (log 6). -/
def Obligations.SequentialErrorKinds : Prop :=
  ∀ s : State,
    (∀ e, sequentialTurn s = .fault e → e = .outOfBounds ∨ e = .invalidOpcode ∨ e = .invalidRegister ∨
      e = .abort .edgeAccess ∨ e = .abort .shortOperands) ∧
    (∀ r, sequentialTurn s ≠ .refused r)

/-- 60_exceptions.md R179: the numeric labels of the errors; an abort has none (the spec's decision D15, log 16). -/
def Obligations.ErrorCodes : Prop :=
  [Fault.outOfBounds, .capacityExceeded, .invalidOpcode, .invalidRegister, .internalFault, .lockPoisoned].map Fault.code =
    [some 1, some 2, some 3, some 4, some 5, some 6] ∧ ∀ r, Fault.code (.abort r) = none

/-! ## The step and the sequential run -/

/-- A step runs the decoded instruction: when the bytes at PC are those of a well-formed instruction other than NOP, inside
the code segment, and no concurrent run is in progress, the step is exec of it, the run field marked `sequential`
(40_fetch_decode_advance.md R130). The run field is THE MODEL'S CHOICE (log 19). -/
def Obligations.StepRunsTheDecodedInstruction : Prop :=
  ∀ (s : State) (i : Instr), s.run.takesTurn = true → i.WellFormed → i.opcode ≠ .nop →
    s.pc.toNat + (encode i).length ≤ 16384 →
    (∀ k b, (encode i)[k]? = some b → s.mem.byte .code (s.pc.toNat + k) = b) →
    step s = exec i (s.withRun .sequential)

/-- 41_nop.md R140: NOP as met by the decoder: the run halts with no register or byte changed and PC at the NOP; the opcode
fetch's own errors. Stepping again halts again. The run field and the edge abort are choices (log 19, 5). -/
def Obligations.NopHaltsTheRun : Prop :=
  ∀ s : State, s.run.takesTurn = true →
    (s.pc.toNat < 16384 → s.mem.byte .code s.pc.toNat = 0x00 →
      decodeAt s.mem s.pc.toNat = .ok .endOfStream ∧ step s = .next (s.withRun .halted) ∧
      step (s.withRun .halted) = .next (s.withRun .halted)) ∧
    (s.pc.toNat = 16384 → step s = .fault (.abort .edgeAccess)) ∧
    (16384 < s.pc.toNat → step s = .fault .outOfBounds)

/-- A step whose decode fails ends with the decode's error (40_fetch_decode_advance.md R130, R132). -/
def Obligations.StepReportsDecodeErrors : Prop :=
  ∀ (s : State) (e : Fault), s.run.takesTurn = true → decodeAt s.mem s.pc.toNat = .error e → step s = .fault e

/-- A machine whose PC is at a terminator is safe: no number of steps fails (40_fetch_decode_advance.md R131). -/
def Obligations.HaltedMachineIsSafe : Prop :=
  ∀ s : State, s.run.takesTurn = true → s.pc.toNat < 16384 → s.mem.byte .code s.pc.toNat = 0x00 → Safe s

/-- A run of `run_sequential` that halts: it got there by steps, and PC is at the terminator
(40_fetch_decode_advance.md R130, R131, R133). -/
def Obligations.HaltedRunStopsAtNop : Prop :=
  ∀ (fuel : Nat) (s t : State), s.run.takesTurn = true → runSequential fuel s = .halted t →
    t.run = .halted ∧ t.pc.toNat < 16384 ∧ t.mem.byte .code t.pc.toNat = 0x00 ∧
    ∃ n, n ≤ fuel ∧ Sys2Proof.core.run n s = .next t

/-- A run of `run_sequential` that fails: every step before the failing one completed, and the failing one wrote no byte of
memory and no register (60_exceptions.md R182, 40_fetch_decode_advance.md R132). Nothing is said of PC after the failure, as
R182 asks (the spec's decision D12, log 13). -/
def Obligations.FailedRunIsPrecise : Prop :=
  ∀ (fuel : Nat) (s u : State) (e : Fault), s.run.takesTurn = true → runSequential fuel s = .failed e u →
    ∃ n t, n < fuel ∧ Sys2Proof.core.run n s = .next t ∧ step t = .fault e ∧
      (∀ g a, u.mem.read g a = t.mem.read g a) ∧ ∀ q, q ≠ Reg.PC → u.readReg q = t.readReg q

/-- A run of `run_sequential` that ends does not depend on the fuel (40_fetch_decode_advance.md R133). -/
def Obligations.RunEndIgnoresMoreFuel : Prop :=
  ∀ (fuel more : Nat) (s : State), (∀ t, runSequential fuel s ≠ .outOfFuel t) →
    runSequential (fuel + more) s = runSequential fuel s

/-! ## Whole-machine rules -/

/-- Every step keeps the invariant: memory in its one canonical form and inside its capacities (10_state.md R33), tasks
with one to ten iterations left (60_exceptions.md R194). The form is THE MODEL'S CHOICE (log 34). -/
def Obligations.StepKeepsInvariant : Prop :=
  ∀ s t : State, s.wf → step s = .next t → t.wf

/-- Every host port keeps the invariant (log 34). -/
def Obligations.PortsKeepInvariant : Prop :=
  ∀ (p : Port) (s t : State) (a : Answer), s.wf → p.call s = .next (t, a) → t.wf

/-- 10_state.md R34: no step of any run mode writes the code segment, so a program cannot modify itself; nor the stack
segment. -/
def Obligations.StepsNeverWriteCodeOrStack : Prop :=
  ∀ s t : State, step s = .next t →
    (∀ a, t.mem.read .code a = s.mem.read .code a) ∧ (∀ a, t.mem.read .stack a = s.mem.read .stack a) ∧
    ∀ pc, decodeAt t.mem pc = decodeAt s.mem pc

/-- 10_state.md R36: no step reads the stack segment: two machines that differ only there take the same step, and still
differ only there. -/
def Obligations.StackIsNeverRead : Prop :=
  ∀ (s : State) (cells : List Host.Cell),
    (∀ t, step s = .next t →
      step (s.withMem (s.mem.withCells .stack cells)) = .next (t.withMem (t.mem.withCells .stack cells))) ∧
    (∀ e, step s = .fault e → step (s.withMem (s.mem.withCells .stack cells)) = .fault e)

/-- No step of any run mode is refused: each goes on, or ends in an error or abort of the spec (00_scope.md R9). -/
def Obligations.NoStepIsRefused : Prop := ∀ (s : State) (r : Refusal), step s ≠ .refused r

/-- 10_state.md R36: in a machine driven only through the interface the source exposes to its driver, every stack byte
stays 0x00 for ever. -/
def Obligations.DrivenStackStaysZero : Prop :=
  ∀ s : State, DriverReachable s → ∀ a, a < 40960 → s.mem.read .stack a = .ok 0x00

/-- While a run entry executes every port is refused: THE MODEL'S CHOICE for a breached host duty (70_reset_and_hazards.md
R224, log 25). Between runs, construction leaves the state after reset (R220), `decode` answers what the decoder answers and
changes nothing (R125), `execute` does what executing the instruction does (R126), and `run_sequential` starts at the turn
that the state's own step is (R130, log 19). The memory ports are HostMemoryPorts, the register ports
RegisterReadWritePorts, IncrementPort and DecrementPort, and `run_concurrent` is ScanTurns. -/
def Obligations.PortsRefusedDuringRun : Prop :=
  ∀ s : State,
    (∀ p : Port, s.run.busy = true → p.call s = .refused .portDuringRun) ∧
    (∀ p : Port, s.run.busy = false → p.call s = p.effect s) ∧
    (s.run.busy = false →
      Port.construct.call s = .next (State.reset, .unit) ∧
      (∀ pc d, decodeAt s.mem pc = .ok d → (Port.decode pc).call s = .next (s, .decoded d)) ∧
      (∀ pc e, decodeAt s.mem pc = .error e → (Port.decode pc).call s = .fault e) ∧
      (∀ i t, exec i s = .next t → (Port.execute i).call s = .next (t, .unit)) ∧
      (∀ i e, exec i s = .fault e → (Port.execute i).call s = .fault e) ∧
      ∃ t, Port.runSequential.call s = .next (t, .unit) ∧ t.regs = s.regs ∧ t.mem = s.mem ∧ t.draws = s.draws ∧
        step t = step s)

/-! ## The concurrent run mode -/

/-- 60_exceptions.md R192: the scan, header by header. Validating the opcode and the edge abort are the spec's decisions D23 and D5
(log 22, 5). -/
def Obligations.ScanTurns : Prop :=
  (∀ s : State, s.run.busy = false →
    Port.call .runConcurrent s = .next (s.withRun (.scanning s.pc.toNat 0), .unit)) ∧
  ∀ (s : State) (c n : Nat), s.run = .scanning c n →
    (16384 < c → step s = .fault .outOfBounds) ∧
    (c = 16384 → step s = .fault (.abort .edgeAccess)) ∧
    (c < 16384 → opDecode hw (s.mem.byte .code c) = none → step s = .fault .invalidOpcode) ∧
    (c < 16384 → s.mem.byte .code c = 0x00 →
      step s = .next (s.withRun (.concurrent (List.replicate (n / 10) (.live 10 .fetchPc))))) ∧
    (∀ op, op ≠ .nop → s.mem.byte .code c = opByte hw op →
      (c = 16383 → step s = .fault (.abort .edgeAccess)) ∧
      (c < 16383 →
        step s = .next (s.withRun (.scanning (c + 2 + (s.mem.byte .code (c + 1)).toNat) (n + 1)))))

/-- 60_exceptions.md R193: `floor(N / 10)` tasks are dispatched; with fewer than ten instructions scanned, none, and the
call returns at once having executed nothing. -/
def Obligations.DispatchCount : Prop :=
  ∀ (s : State) (c n : Nat), s.run = .scanning c n → c < 16384 → s.mem.byte .code c = 0x00 →
    (∃ t ts, step s = .next t ∧ t.run = .concurrent ts ∧ ts.length = n / 10 ∧
      ∀ x ∈ ts, x = .live 10 .fetchPc) ∧
    (n < 10 → Sys2Proof.core.run 2 s = .next (s.withRun .joined))

/-- 60_exceptions.md R191: the scan ends within 8193 turns, with no register and no byte changed. -/
def Obligations.ScanEnds : Prop :=
  ∀ (s : State) (c n : Nat), s.run = .scanning c n →
    ∃ k, k ≤ 8193 ∧ ((∃ e, Sys2Proof.core.run k s = .fault e) ∨
      ∃ t ts, Sys2Proof.core.run k s = .next t ∧ t.run = .concurrent ts ∧ t.regs = s.regs ∧ t.mem = s.mem)

/-- 60_exceptions.md R194, R195, R197: the atomic actions of a task, in order: it reads PC, decodes there, and ends with
success at end-of-stream (log 27) or goes on to the first action of the decoded instruction; what that first action is; what
each further action does and leaves to do (the spec's decision D23; the checks inside the decode action are the model's,
log 26). -/
def Obligations.AtomicActions : Prop :=
  (∀ (L : Byte) (ops : List Byte), firstAction (.nop L ops) = .next (.advanceRead L)) ∧
  (∀ (L rid imm : Byte) (rest : List Byte) (r : Reg), 2 ≤ L.toNat → rid.toNat = r.val →
    firstAction (.mov L (rid :: imm :: rest)) = .next (.writeReg r (zext16 imm) L)) ∧
  (∀ (L hi lo rid : Byte) (rest : List Byte) (r : Reg), 3 ≤ L.toNat → rid.toNat = r.val →
    firstAction (.ldm L (hi :: lo :: rid :: rest)) = .next (.ldmData (joinBytes hi lo) r L) ∧
    firstAction (.stm L (hi :: lo :: rid :: rest)) = .next (.stmReg (joinBytes hi lo) r L) ∧
    firstAction (.add L (hi :: lo :: rid :: rest)) = .next (.addData (joinBytes hi lo) r L)) ∧
  ∀ (s : State) (left : Nat) (p addr v : Word) (r : Reg) (L b : Byte),
    doAction left .fetchPc s = .next (.live left (.decode s.pc), s) ∧
    (decodeAt s.mem p.toNat = .ok .endOfStream → doAction left (.decode p) s = .next (.returned, s)) ∧
    (∀ i rest a, decodeAt s.mem p.toNat = .ok (.instr i rest) → firstAction i = .next a →
      doAction left (.decode p) s = .next (.live left a, s)) ∧
    (addr.toNat < 8192 →
      doAction left (.ldmData addr r L) s =
        .next (.live left (.writeReg r (zext16 (s.mem.byte .data addr.toNat)) L), s) ∧
      doAction left (.stmData addr b L) s =
        .next (.live left (.advanceRead L), s.withMem (s.mem.setByte .data addr.toNat b)) ∧
      doAction left (.addData addr r L) s = .next (.live left (.addReg (s.mem.byte .data addr.toNat) r L), s)) ∧
    doAction left (.stmReg addr r L) s = .next (.live left (.stmData addr (lowByte (s.readReg r)) L), s) ∧
    doAction left (.addReg b r L) s = .next (.live left (.writeReg r (addByte (s.readReg r) b) L), s) ∧
    doAction left (.writeReg r v L) s = .next (.live left (.advanceRead L), s.writeReg r v) ∧
    doAction left (.advanceRead L) s = .next (.live left (.advanceWrite (pcAfter s.pc L)), s) ∧
    (1 < left → doAction left (.advanceWrite v) s = .next (.live (left - 1) .fetchPc, s.writeReg Reg.PC v)) ∧
    doAction 1 (.advanceWrite v) s = .next (.returned, s.writeReg Reg.PC v)

/-- 60_exceptions.md R196: a step of the dispatch phase carries out the next action of the one task the schedule chooses
(log 21), or finds its lock poisoned after an abort (log 23) and then changes no register and no byte. Writing a data byte
changes only the byte at the action's address, writing a register only that register, the last action of an instruction only
PC, and every other action nothing. -/
def Obligations.OneWritePerAtomicAction : Prop :=
  ∀ (s : State) (ts : List Task) (k left : Nat) (a : Action), s.run = .concurrent ts →
    choose (Config.taskPick s.draws) (liveTasks 0 ts) = some (k, left, a) →
    ∃ t x, step s = .next t ∧ ts[k]? = some (.live left a) ∧ t.run = .concurrent (ts.set k x) ∧
      ((∃ u, doAction left a s = .next (x, u) ∧ t.regs = u.regs ∧ t.mem = u.mem) ∨
        (x = .failed .lockPoisoned ∧ .failed .internalFault ∈ ts ∧ t.regs = s.regs ∧ t.mem = s.mem)) ∧
      (∀ g c, (∀ addr b L, a = .stmData addr b L → ¬(g = .data ∧ c = addr.toNat)) →
        t.mem.read g c = s.mem.read g c) ∧
      ∀ q, (∀ r v L, a = .writeReg r v L → q ≠ r) → (∀ v, a = .advanceWrite v → q ≠ Reg.PC) →
        t.readReg q = s.readReg q

/-- 60_exceptions.md R200, R201: while any task is unfinished the mode goes on, whatever the others have ended in, and a
step changes only the one unfinished task the schedule chooses (log 21): a failing task stops itself only, and a finished
task stays as it is. -/
def Obligations.FailureStopsOnlyItsTask : Prop :=
  ∀ (s : State) (ts : List Task), s.run = .concurrent ts → (∃ x ∈ ts, ¬x.finished) →
    ∃ t ts' k left a, step s = .next t ∧ t.run = .concurrent ts' ∧ ts'.length = ts.length ∧
      choose (Config.taskPick s.draws) (liveTasks 0 ts) = some (k, left, a) ∧ ts[k]? = some (.live left a) ∧
      (∀ j, j ≠ k → ts'[j]? = ts[j]?) ∧
      ∀ (j : Nat) (x : Task), ts[j]? = some x → x.finished → ts'[j]? = some x

/-- 60_exceptions.md R201: with every task finished, the join returns `()` if none failed, and otherwise the error of some
failing task (the spec's decision D23, log 24). -/
def Obligations.JoinReportsSomeFailure : Prop :=
  ∀ (s : State) (ts : List Task), s.run = .concurrent ts → (∀ x ∈ ts, x.finished) →
    ((∀ e, .failed e ∉ ts) → step s = .next (s.withRun .joined)) ∧
    ((∃ e, .failed e ∈ ts) → ∃ e, .failed e ∈ ts ∧ step s = .fault e)

/-- 60_exceptions.md R201, R202: an aborting task is reported as `InternalFault`, whichever action aborts; a task that fails
with an error value, at its decode, at its register byte or at its data access, reports that error itself. What aborts is the
spec's decision D5 and D7 (log 5, 7). -/
def Obligations.AbortedTaskIsInternalFault : Prop :=
  (∀ reason, taskFault (.abort reason) = .internalFault) ∧
  (∀ e, (∀ reason, e ≠ .abort reason) → taskFault e = e) ∧
  ∀ (s : State) (left : Nat) (p addr : Word) (r : Reg) (b L : Byte),
    (∀ reason, decodeAt s.mem p.toNat = .error (.abort reason) →
      doAction left (.decode p) s = .next (.failed .internalFault, s)) ∧
    (∀ e, decodeAt s.mem p.toNat = .error e → (∀ reason, e ≠ .abort reason) →
      (e = .outOfBounds ∨ e = .invalidOpcode) ∧ doAction left (.decode p) s = .next (.failed e, s)) ∧
    (∀ i rest, decodeAt s.mem p.toNat = .ok (.instr i rest) → i.len.toNat < i.opcode.need →
      doAction left (.decode p) s = .next (.failed .internalFault, s)) ∧
    (∀ n rid imm ops rest, decodeAt s.mem p.toNat = .ok (.instr (.mov n (rid :: imm :: ops)) rest) → 10 ≤ rid.toNat →
      doAction left (.decode p) s = .next (.failed .invalidRegister, s)) ∧
    (∀ n hi lo rid ops rest, 10 ≤ rid.toNat →
      (decodeAt s.mem p.toNat = .ok (.instr (.ldm n (hi :: lo :: rid :: ops)) rest) ∨
        decodeAt s.mem p.toNat = .ok (.instr (.stm n (hi :: lo :: rid :: ops)) rest) ∨
        decodeAt s.mem p.toNat = .ok (.instr (.add n (hi :: lo :: rid :: ops)) rest)) →
      doAction left (.decode p) s = .next (.failed .invalidRegister, s)) ∧
    (addr.toNat = 8192 →
      doAction left (.ldmData addr r L) s = .next (.failed .internalFault, s) ∧
      doAction left (.stmData addr b L) s = .next (.failed .internalFault, s) ∧
      doAction left (.addData addr r L) s = .next (.failed .internalFault, s)) ∧
    (8192 < addr.toNat →
      doAction left (.ldmData addr r L) s = .next (.failed .outOfBounds, s) ∧
      doAction left (.stmData addr b L) s = .next (.failed .outOfBounds, s) ∧
      doAction left (.addData addr r L) s = .next (.failed .outOfBounds, s))

/-- 60_exceptions.md R177, R203: a task fails with `LockPoisoned` only after some task has aborted (the spec's decision
D23, log 23). -/
def Obligations.PoisonNeedsAnAbort : Prop :=
  ∀ (s t : State) (ts ts' : List Task), s.run = .concurrent ts → step s = .next t → t.run = .concurrent ts' →
    .failed .lockPoisoned ∈ ts' → .failed .lockPoisoned ∈ ts ∨ .failed .internalFault ∈ ts

/-- 60_exceptions.md R200: `run_concurrent` returns once every task has ended, and every task ends: within seventy steps a
task and the join (a step is one atomic action: log 21). -/
def Obligations.ConcurrentRunReturns : Prop :=
  ∀ (s : State) (ts : List Task), s.run = .concurrent ts → (∀ x ∈ ts, x.wf) →
    ∃ k, k ≤ 70 * ts.length + 1 ∧
      ((∃ t, Sys2Proof.core.run k s = .next t ∧ t.run = .joined) ∨ ∃ e, Sys2Proof.core.run k s = .fault e)

/-- 60_exceptions.md R199: with one task, the concurrent mode runs its instructions exactly as sequential mode would. Where
`j` steps of `run_sequential` have completed without halting, a single task with `n` iterations ends with success in the
same registers and memory if `j` is `n` or the next sequential step halts, and ends with the error the next sequential step
fails with (`InternalFault` for an abort), in the same registers and memory, PC apart (log 13). -/
def Obligations.SingleTaskRunsSequentially : Prop :=
  ∀ (n j : Nat) (s t : State), 1 ≤ n → s.run = .sequential → Sys2Proof.core.run j s = .next t → t.run = .sequential →
    ((j = n ∨ (j < n ∧ ∃ h, step t = .next h ∧ h.run = .halted)) →
      ∃ k u, k ≤ 7 * n ∧ Sys2Proof.core.run k (s.withRun (.concurrent [.live n .fetchPc])) = .next u ∧
        u.run = .concurrent [.returned] ∧ u.regs = t.regs ∧ u.mem = t.mem) ∧
    (∀ e, j < n → step t = .fault e →
      ∃ k u, k ≤ 7 * n ∧ Sys2Proof.core.run k (s.withRun (.concurrent [.live n .fetchPc])) = .next u ∧
        u.run = .concurrent [.failed (taskFault e)] ∧ u.mem = t.mem ∧ ∀ q, q ≠ Reg.PC → u.readReg q = t.readReg q)

/-! ## Aborts, and the memory ports -/

/-- 60_exceptions.md R178: an abort leaves no machine to use: none after a step that aborts, none after a concurrent run in
which a task has aborted, whichever error the join returns; after an error the machine can be used again, with registers and
memory as they stand (R184; of PC nothing is said, log 13). A sequential run that aborts does so at its first aborting step,
every step before it complete. The outcome class is the spec's decision D6 (log 6, 32). -/
def Obligations.AbortLeavesNoMachine : Prop :=
  ∀ s : State,
    (∀ reason, s.afterFault (.abort reason) = none) ∧
    (∀ ts e, s.run = .concurrent ts → .failed .internalFault ∈ ts → s.afterFault e = none) ∧
    (∀ e, (∀ reason, e ≠ .abort reason) → (∀ ts, s.run = .concurrent ts → .failed .internalFault ∉ ts) →
      ∃ u, s.afterFault e = some u ∧ u.run.busy = false ∧ u.mem = s.mem ∧
        ∀ q, q ≠ Reg.PC → u.readReg q = s.readReg q) ∧
    ∀ fuel reason, s.run.takesTurn = true → runSequential fuel s = .aborted reason →
      ∃ n t, n < fuel ∧ Sys2Proof.core.run n s = .next t ∧ step t = .fault (.abort reason)

/-- 20_memory.md R56, R57, R60 to R63: between runs, what each memory port does to the machine, and that a read port
changes nothing. The edge abort, the slice check, the overrunning load and the boundaries of `read_unified` are the spec's
decisions D5, D8, D18 and D9 (log 5, 9, 17, 10). -/
def Obligations.HostMemoryPorts : Prop :=
  ∀ s : State, s.run.busy = false →
    (∀ (g : Segment) (a : Nat) (b : Byte),
      (a < g.cap → (g.readPort a).call s = .next (s, .byte (s.mem.byte g a)) ∧
        ∃ t, (g.writePort a b).call s = .next (t, .unit) ∧ t.mem.read g a = .ok b ∧
          (∀ g' c, ¬(g' = g ∧ c = a) → t.mem.read g' c = s.mem.read g' c) ∧
          t.regs = s.regs ∧ t.run = s.run ∧ t.draws = s.draws) ∧
      (a = g.cap → (g.readPort a).call s = .fault (.abort .edgeAccess) ∧
        (g.writePort a b).call s = .fault (.abort .edgeAccess)) ∧
      (g.cap < a → (g.readPort a).call s = .fault .outOfBounds ∧ (g.writePort a b).call s = .fault .outOfBounds)) ∧
    (∀ (a : Nat) (bytes : List Byte),
      (a + bytes.length ≤ 8192 → ∃ t, (Port.writeDataSlice bytes a).call s = .next (t, .unit) ∧
        (∀ k b, bytes[k]? = some b → t.mem.read .data (a + k) = .ok b) ∧
        (∀ g c, ¬(g = .data ∧ a ≤ c ∧ c < a + bytes.length) → t.mem.read g c = s.mem.read g c) ∧
        t.regs = s.regs ∧ t.run = s.run ∧ t.draws = s.draws) ∧
      (8192 < a + bytes.length → (Port.writeDataSlice bytes a).call s = .fault .outOfBounds)) ∧
    (∀ (a : Nat) (bytes : List Byte),
      (a + bytes.length ≤ 16384 → ∃ t, (Port.loadCode a bytes).call s = .next (t, .count bytes.length) ∧
        (∀ k b, bytes[k]? = some b → t.mem.read .code (a + k) = .ok b) ∧
        (∀ g c, ¬(g = .code ∧ a ≤ c ∧ c < a + bytes.length) → t.mem.read g c = s.mem.read g c) ∧
        t.regs = s.regs ∧ t.run = s.run ∧ t.draws = s.draws) ∧
      (16384 < bytes.length → (Port.loadCode a bytes).call s = .fault .capacityExceeded) ∧
      (bytes.length ≤ 16384 → 16384 < a + bytes.length →
        (Port.loadCode a bytes).call s = .fault (.abort .loadOverrun))) ∧
    (∀ a n : Nat,
      (a + n ≤ 16384 → ∃ bs, (Port.readCodeSlice a n).call s = .next (s, .bytes bs) ∧ bs.length = n ∧
        ∀ k, k < n → bs[k]? = some (s.mem.byte .code (a + k))) ∧
      (16384 < a + n → (Port.readCodeSlice a n).call s = .fault .outOfBounds)) ∧
    ∀ a : Nat,
      (a < 16384 → (Port.readUnified a).call s = .next (s, .byte (s.mem.byte .code a))) ∧
      (16384 ≤ a → a < 24576 → (Port.readUnified a).call s = .next (s, .byte (s.mem.byte .data (a - 16384)))) ∧
      (24576 ≤ a → a < 65536 → (Port.readUnified a).call s = .next (s, .byte (s.mem.byte .stack (a - 24576)))) ∧
      (65536 ≤ a → (Port.readUnified a).call s = .fault .outOfBounds)
end

