-- ==== Sys2Proof/Laws/State.lean ====
section
/-! SUPPORT. The value of every parameter, and one lemma per field per update of the state. -/

namespace Sys2Proof

/-! ## The parameters of R3 -/

@[simp] theorem hw_NREG : hw.NREG = 10 := rfl
@[simp] theorem hw_CAP_CODE : hw.CAP_CODE = 16384 := rfl
@[simp] theorem hw_CAP_DATA : hw.CAP_DATA = 8192 := rfl
@[simp] theorem hw_CAP_STACK : hw.CAP_STACK = 40960 := rfl
@[simp] theorem hw_HDR : hw.HDR = 2 := rfl
@[simp] theorem hw_BATCH : hw.BATCH = 10 := rfl
@[simp] theorem hw_INCDEC_WRAP : hw.INCDEC_WRAP = false := rfl
@[simp] theorem hw_STRICT_LENGTH : hw.STRICT_LENGTH = false := rfl

/-! ## The Instruction value -/

@[simp] theorem instr_opcode (op : Opcode) (L : Byte) (ops : List Byte) : (op.instr L ops).opcode = op := by
  cases op <;> rfl
@[simp] theorem instr_len (op : Opcode) (L : Byte) (ops : List Byte) : (op.instr L ops).len = L := by
  cases op <;> rfl
@[simp] theorem instr_ops (op : Opcode) (L : Byte) (ops : List Byte) : (op.instr L ops).ops = ops := by
  cases op <;> rfl
/-- An instruction is its three fields. -/
theorem instr_eta (i : Instr) : i.opcode.instr i.len i.ops = i := by cases i <;> rfl

namespace Machine

@[simp] theorem cap_code : Segment.code.cap = 16384 := rfl
@[simp] theorem cap_data : Segment.data.cap = 8192 := rfl
@[simp] theorem cap_stack : Segment.stack.cap = 40960 := rfl
@[simp] theorem unlisted_eq : Memory.unlisted = 0 := rfl

/-! ## Register writes -/

variable (s : State) (m : Memory) (r q : Reg) (v : Word) (x : Run) (L : Byte)

/-- The register file after a write (10_state.md R24, R25). -/
theorem readReg_writeReg : (s.writeReg r v).readReg q = if q = r then v else s.readReg q := by
  simp [State.writeReg, State.readReg, Vector.get_eq_getElem, Vector.getElem_set, Fin.ext_iff, eq_comm]

@[simp] theorem readReg_writeReg_same : (s.writeReg r v).readReg r = v := by simp [readReg_writeReg]

theorem readReg_writeReg_ne (h : q ≠ r) : (s.writeReg r v).readReg q = s.readReg q := by
  simp [readReg_writeReg, h]

@[simp] theorem writeReg_mem : (s.writeReg r v).mem = s.mem := rfl
@[simp] theorem writeReg_run : (s.writeReg r v).run = s.run := rfl
@[simp] theorem writeReg_draws : (s.writeReg r v).draws = s.draws := rfl
@[simp] theorem writeReg_regs : (s.writeReg r v).regs = s.regs.set r v := rfl
@[simp] theorem pc_writeReg_PC : (s.writeReg Reg.PC v).pc = v := by simp [State.pc]
theorem pc_writeReg_ne (h : Reg.PC ≠ r) : (s.writeReg r v).pc = s.pc := by
  simp only [State.pc]; exact readReg_writeReg_ne s r Reg.PC v h

/-! ## The advancement -/

@[simp] theorem advance_mem : (s.advance L).mem = s.mem := rfl
@[simp] theorem advance_run : (s.advance L).run = s.run := rfl
@[simp] theorem advance_draws : (s.advance L).draws = s.draws := rfl
@[simp] theorem advance_pc : (s.advance L).pc = pcAfter s.pc L := by simp [State.advance]
theorem advance_readReg : (s.advance L).readReg q = if q = Reg.PC then pcAfter s.pc L else s.readReg q := by
  simp [State.advance, readReg_writeReg]
theorem advance_readReg_ne (h : q ≠ Reg.PC) : (s.advance L).readReg q = s.readReg q := by
  simp [advance_readReg, h]

/-! ## Memory, run and draws replaced -/

@[simp] theorem withMem_mem : (s.withMem m).mem = m := rfl
@[simp] theorem withMem_regs : (s.withMem m).regs = s.regs := rfl
@[simp] theorem withMem_run : (s.withMem m).run = s.run := rfl
@[simp] theorem withMem_draws : (s.withMem m).draws = s.draws := rfl
@[simp] theorem withMem_readReg : (s.withMem m).readReg q = s.readReg q := rfl
@[simp] theorem withMem_pc : (s.withMem m).pc = s.pc := rfl
@[simp] theorem withRun_mem : (s.withRun x).mem = s.mem := rfl
@[simp] theorem withRun_regs : (s.withRun x).regs = s.regs := rfl
@[simp] theorem withRun_run : (s.withRun x).run = x := rfl
@[simp] theorem withRun_draws : (s.withRun x).draws = s.draws := rfl
@[simp] theorem withRun_readReg : (s.withRun x).readReg q = s.readReg q := rfl
@[simp] theorem withRun_pc : (s.withRun x).pc = s.pc := rfl
@[simp] theorem withRun_withRun (y : Run) : (s.withRun x).withRun y = s.withRun y := rfl
theorem withRun_self (h : s.run = x) : s.withRun x = s := by subst h; rfl
@[simp] theorem drawn_mem : s.drawn.mem = s.mem := rfl
@[simp] theorem drawn_regs : s.drawn.regs = s.regs := rfl
@[simp] theorem drawn_run : s.drawn.run = s.run := rfl
@[simp] theorem drawn_draws : s.drawn.draws = s.draws + 1 := rfl
@[simp] theorem drawn_readReg : s.drawn.readReg q = s.readReg q := rfl
@[simp] theorem drawn_pc : s.drawn.pc = s.pc := rfl

/-- Two states with the same registers, memory, run and draws are the same state. -/
theorem State.ext_fields {s t : State} (hr : ∀ q, s.readReg q = t.readReg q) (hm : s.mem = t.mem)
    (hx : s.run = t.run) (hd : s.draws = t.draws) : s = t := by
  cases s; cases t
  simp only [State.mk.injEq]
  exact ⟨Vector.ext fun i hi => by simpa [State.readReg, Vector.get_eq_getElem] using hr ⟨i, hi⟩, hm, hx, hd⟩

/-- What reset leaves in a register (10_state.md R40). -/
@[simp] theorem reset_readReg : State.reset.readReg q = 0 := by
  simp [State.reset, State.readReg, Vector.get_eq_getElem]

end Machine
end Sys2Proof
end

