-- ==== Sys2Proof/Laws/Memory.lean ====
section
/-! SUPPORT. What a memory write changes and leaves alone, and that every memory operation keeps the canonical form. -/

namespace Sys2Proof.Machine

/-! ## The list of a segment -/

theorem readCells_eraseCell (cs : List Host.Cell) (a b : Nat) :
    readCells (eraseCell cs a) b = if b = a then 0 else readCells cs b := by
  induction cs with
  | nil => simp [eraseCell, readCells]
  | cons c t ih =>
    obtain ⟨k, w⟩ := c
    by_cases hk : a = k
    · subst hk
      by_cases hb : b = a
      · subst hb; simpa [eraseCell, readCells] using ih
      · simp [eraseCell, readCells, ih, hb]
    · by_cases hb : b = a
      · subst hb; simp [eraseCell, readCells, ih, hk]
      · simp [eraseCell, readCells, ih, hb, hk]

theorem readCells_insertCell (cs : List Host.Cell) (a b : Nat) (v : Byte) (hn : ∀ x ∈ cs, x.1 ≠ a) :
    readCells (insertCell cs a v) b = if b = a then v else readCells cs b := by
  induction cs with
  | nil => simp [insertCell, readCells]
  | cons c t ih =>
    obtain ⟨k, w⟩ := c
    have hk : k ≠ a := hn (k, w) (by simp)
    have ht := ih fun x hx => hn x (List.mem_cons_of_mem _ hx)
    by_cases hlt : a < k
    · simp [insertCell, hlt, readCells]
    · by_cases hb : b = k
      · subst hb; simp [insertCell, hlt, readCells, hk]
      · simp [insertCell, hlt, readCells, hb, ht]

theorem mem_eraseCell {cs : List Host.Cell} {a : Nat} {x : Host.Cell} :
    x ∈ eraseCell cs a ↔ x ∈ cs ∧ x.1 ≠ a := by
  induction cs with
  | nil => simp [eraseCell]
  | cons c t ih =>
    obtain ⟨k, w⟩ := c
    by_cases hk : a = k
    · subst hk
      simp only [eraseCell, if_true, ih, List.mem_cons]
      constructor
      · rintro ⟨h, hn⟩; exact ⟨.inr h, hn⟩
      · rintro ⟨rfl | h, hn⟩
        · exact absurd rfl hn
        · exact ⟨h, hn⟩
    · simp only [eraseCell, hk, if_false, List.mem_cons, ih]
      constructor
      · rintro (rfl | ⟨h, hn⟩)
        · exact ⟨.inl rfl, fun h => hk h.symm⟩
        · exact ⟨.inr h, hn⟩
      · rintro ⟨rfl | h, hn⟩
        · exact .inl rfl
        · exact .inr ⟨h, hn⟩

theorem mem_insertCell {cs : List Host.Cell} {a : Nat} {v : Byte} {x : Host.Cell} :
    x ∈ insertCell cs a v ↔ x = (a, v) ∨ x ∈ cs := by
  induction cs with
  | nil => simp [insertCell]
  | cons c t ih =>
    obtain ⟨k, w⟩ := c
    by_cases hlt : a < k
    · simp [insertCell, hlt]
    · simp only [insertCell, hlt, if_false, List.mem_cons, ih]
      tauto

/-- A byte read after a write: the byte written there, and every other byte as before. -/
theorem readCells_writeCells (cs : List Host.Cell) (a b : Nat) (v : Byte) :
    readCells (writeCells cs a v) b = if b = a then v else readCells cs b := by
  by_cases hv : v = 0
  · subst hv; simp [writeCells, readCells_eraseCell]
  · simp only [writeCells, unlisted_eq, hv, if_false]
    rw [readCells_insertCell _ _ _ _ fun x hx => (mem_eraseCell.mp hx).2, readCells_eraseCell]
    by_cases hb : b = a <;> simp [hb]

theorem eraseCell_sorted {cs : List Host.Cell} {a : Nat} (h : cs.Pairwise fun x y => x.1 < y.1) :
    (eraseCell cs a).Pairwise fun x y => x.1 < y.1 := by
  induction cs with
  | nil => simp [eraseCell]
  | cons c t ih =>
    obtain ⟨k, w⟩ := c
    rw [List.pairwise_cons] at h
    by_cases hk : a = k
    · simpa [eraseCell, hk] using hk ▸ ih h.2
    · simp only [eraseCell, hk, if_false, List.pairwise_cons]
      exact ⟨fun x hx => h.1 x (mem_eraseCell.mp hx).1, ih h.2⟩

theorem insertCell_sorted {cs : List Host.Cell} {a : Nat} {v : Byte} (h : cs.Pairwise fun x y => x.1 < y.1)
    (hn : ∀ x ∈ cs, x.1 ≠ a) : (insertCell cs a v).Pairwise fun x y => x.1 < y.1 := by
  induction cs with
  | nil => simp [insertCell]
  | cons c t ih =>
    obtain ⟨k, w⟩ := c
    have hk : k ≠ a := hn (k, w) (by simp)
    have h' := List.pairwise_cons.mp h
    by_cases hlt : a < k
    · simp only [insertCell, hlt, if_true]
      refine List.pairwise_cons.mpr ⟨?_, h⟩
      intro x hx
      rcases List.mem_cons.mp hx with rfl | hx
      · exact hlt
      · exact hlt.trans (h'.1 x hx)
    · simp only [insertCell, hlt, if_false, List.pairwise_cons]
      refine ⟨?_, ih h'.2 fun x hx => hn x (List.mem_cons_of_mem _ hx)⟩
      intro x hx
      rcases mem_insertCell.mp hx with rfl | hx
      · simp only; omega
      · exact h'.1 x hx

/-- A write inside the capacity keeps the canonical form. -/
theorem writeCells_canonical {cap : Nat} {cs : List Host.Cell} {a : Nat} {v : Byte} (h : canonical cap cs)
    (ha : a < cap) : canonical cap (writeCells cs a v) := by
  have hs := eraseCell_sorted (a := a) h.1
  by_cases hv : v = 0
  · subst hv
    simp only [writeCells, unlisted_eq, if_true]
    exact ⟨hs, fun x hx => h.2 x (mem_eraseCell.mp hx).1⟩
  · simp only [writeCells, unlisted_eq, hv, if_false]
    refine ⟨insertCell_sorted hs fun x hx => (mem_eraseCell.mp hx).2, fun x hx => ?_⟩
    rcases mem_insertCell.mp hx with rfl | hx
    · exact ⟨ha, hv⟩
    · exact h.2 x (mem_eraseCell.mp hx).1

/-- In a sorted list with a nonzero head, a smaller address reads as unlisted. -/
theorem readCells_of_lt {cs : List Host.Cell} {a : Nat} (h : ∀ x ∈ cs, a < x.1) : readCells cs a = 0 := by
  induction cs with
  | nil => rfl
  | cons c t ih =>
    obtain ⟨k, w⟩ := c
    have hk : a < k := h (k, w) (by simp)
    simp only [readCells, Nat.ne_of_lt hk, if_false]
    exact ih fun x hx => h x (List.mem_cons_of_mem _ hx)

/-! ## The memory -/

variable (m : Memory) (g g' : Segment) (a b : Nat) (v : Byte)

@[simp] theorem cells_withCells (cs : List Host.Cell) :
    (m.withCells g cs).cells g' = if g' = g then cs else m.cells g' := by
  cases g <;> cases g' <;> rfl

@[simp] theorem setByte_code_data : (m.setByte .code a v).data = m.data := rfl
@[simp] theorem setByte_code_stack : (m.setByte .code a v).stack = m.stack := rfl
@[simp] theorem setByte_data_code : (m.setByte .data a v).code = m.code := rfl
@[simp] theorem setByte_data_stack : (m.setByte .data a v).stack = m.stack := rfl
@[simp] theorem setByte_stack_code : (m.setByte .stack a v).code = m.code := rfl
@[simp] theorem setByte_stack_data : (m.setByte .stack a v).data = m.data := rfl

/-- One byte after a write of one byte: that byte, and every other byte of every segment as before. -/
theorem byte_setByte :
    (m.setByte g a v).byte g' b = if g' = g ∧ b = a then v else m.byte g' b := by
  by_cases hg : g' = g
  · subst hg; simp [Memory.byte, Memory.setByte, readCells_writeCells]
  · simp [Memory.byte, Memory.setByte, hg]

/-- One byte after a block of bytes was stored. -/
theorem byte_setBytes (bs : List Byte) :
    (m.setBytes g a bs).byte g' b =
      if g' = g ∧ a ≤ b ∧ b < a + bs.length then bs.getD (b - a) 0 else m.byte g' b := by
  induction bs generalizing m a with
  | nil =>
    have : ¬(a ≤ b ∧ b < a) := by omega
    simp [Memory.setBytes]
  | cons c t ih =>
    simp only [Memory.setBytes, ih, byte_setByte]
    by_cases hg : g' = g
    · subst hg
      by_cases hb : b = a
      · subst hb; simp
      · by_cases h1 : a + 1 ≤ b ∧ b < a + 1 + t.length
        · obtain ⟨i, rfl⟩ := Nat.exists_eq_add_of_le h1.1
          have h2 : a + 1 + i < a + (t.length + 1) := by omega
          have h3 : a + 1 + i - a = i + 1 := by omega
          have h4 : a ≤ a + 1 + i := by omega
          simp [h1.2, h2, h3, h4]
        · have h2 : ¬(a ≤ b ∧ b < a + (t.length + 1)) := by omega
          rw [if_neg (by simpa using h1), if_neg (by simpa using hb), if_neg (by simpa using h2)]
    · simp [hg]

/-- The bytes of a slice, one by one. -/
theorem bytes_length (n : Nat) : (m.bytes g a n).length = n := by
  induction n generalizing a with
  | zero => rfl
  | succ n ih => simp [Memory.bytes, ih]

theorem bytes_getElem? (n i : Nat) (h : i < n) : (m.bytes g a n)[i]? = some (m.byte g (a + i)) := by
  induction n generalizing a i with
  | zero => omega
  | succ n ih =>
    cases i with
    | zero => simp [Memory.bytes]
    | succ i =>
      have h1 : a + 1 + i = a + (i + 1) := by omega
      simp [Memory.bytes, ih (a + 1) i (by omega), h1]

/-- A segment of a well-formed memory is canonical. -/
theorem wf_cells {m : Memory} (h : m.wf) (g : Segment) : canonical g.cap (m.cells g) := by
  cases g
  · exact h.1
  · exact h.2.1
  · exact h.2.2

theorem wf_withCells {m : Memory} (h : m.wf) {g : Segment} {cs : List Host.Cell} (hc : canonical g.cap cs) :
    (m.withCells g cs).wf := by
  cases g
  · exact ⟨hc, h.2.1, h.2.2⟩
  · exact ⟨h.1, hc, h.2.2⟩
  · exact ⟨h.1, h.2.1, hc⟩

/-- Storing a byte inside the capacity keeps memory canonical. -/
theorem setByte_wf {m : Memory} {g : Segment} {a : Nat} {v : Byte} (h : m.wf) (ha : a < g.cap) :
    (m.setByte g a v).wf :=
  wf_withCells h (writeCells_canonical (wf_cells h g) ha)

/-- Storing a block inside the capacity keeps memory canonical. -/
theorem setBytes_wf {m : Memory} {g : Segment} {a : Nat} {bs : List Byte} (h : m.wf) (ha : a + bs.length ≤ g.cap) :
    (m.setBytes g a bs).wf := by
  induction bs generalizing m a with
  | nil => exact h
  | cons c t ih =>
    simp only [List.length_cons] at ha
    exact ih (setByte_wf h (by omega)) (by omega)

theorem setBytes_code_data (bs : List Byte) : (m.setBytes .code a bs).data = m.data := by
  induction bs generalizing m a with
  | nil => rfl
  | cons c t ih => simp [Memory.setBytes, ih]

theorem setBytes_code_stack (bs : List Byte) : (m.setBytes .code a bs).stack = m.stack := by
  induction bs generalizing m a with
  | nil => rfl
  | cons c t ih => simp [Memory.setBytes, ih]

theorem setBytes_data_code (bs : List Byte) : (m.setBytes .data a bs).code = m.code := by
  induction bs generalizing m a with
  | nil => rfl
  | cons c t ih => simp [Memory.setBytes, ih]

theorem setBytes_data_stack (bs : List Byte) : (m.setBytes .data a bs).stack = m.stack := by
  induction bs generalizing m a with
  | nil => rfl
  | cons c t ih => simp [Memory.setBytes, ih]

/-! ## The checked operations -/

/-- A byte check passes below the capacity and only there. -/
theorem checkByte_ok_iff {u : Unit} : checkByte g a = .ok u ↔ a < g.cap := by
  unfold checkByte
  split
  · simp; omega
  · split
    · simp; omega
    · simp; omega

theorem checkSlice_ok_iff {n : Nat} {u : Unit} : checkSlice g a n = .ok u ↔ a + n ≤ g.cap := by
  unfold checkSlice
  split
  · simp; omega
  · simp; omega

/-- If a read answers, it answers the byte, below the capacity. -/
theorem read_ok_iff {x : Byte} : m.read g a = .ok x ↔ a < g.cap ∧ m.byte g a = x := by
  unfold Memory.read
  cases h : checkByte g a with
  | error e =>
    have : ¬ a < g.cap := fun ha => by rw [(checkByte_ok_iff g a (u := ())).mpr ha] at h; cases h
    simp [this]
  | ok u =>
    have := (checkByte_ok_iff g a).mp h
    simp [this]

theorem read_of_lt (h : a < g.cap) : m.read g a = .ok (m.byte g a) := (read_ok_iff m g a).mpr ⟨h, rfl⟩

theorem read_edge : m.read g g.cap = .error (.abort .edgeAccess) := by simp [Memory.read, checkByte]

theorem read_above (h : g.cap < a) : m.read g a = .error .outOfBounds := by simp [Memory.read, checkByte, h]

/-- If a write answers, it stored the one byte, below the capacity. -/
theorem write_ok_iff {m' : Memory} : m.write g a v = .ok m' ↔ a < g.cap ∧ m.setByte g a v = m' := by
  unfold Memory.write
  cases h : checkByte g a with
  | error e =>
    have : ¬ a < g.cap := fun ha => by rw [(checkByte_ok_iff g a (u := ())).mpr ha] at h; cases h
    simp [this]
  | ok u =>
    have := (checkByte_ok_iff g a).mp h
    simp [this]

theorem write_of_lt (h : a < g.cap) : m.write g a v = .ok (m.setByte g a v) :=
  (write_ok_iff m g a v).mpr ⟨h, rfl⟩

theorem write_edge : m.write g g.cap v = .error (.abort .edgeAccess) := by simp [Memory.write, checkByte]

theorem write_above (h : g.cap < a) : m.write g a v = .error .outOfBounds := by simp [Memory.write, checkByte, h]

/-- A checked write keeps memory canonical. -/
theorem write_wf {m m' : Memory} {g : Segment} {a : Nat} {v : Byte} (h : m.wf) (hw : m.write g a v = .ok m') : m'.wf := by
  obtain ⟨ha, rfl⟩ := (write_ok_iff m g a v).mp hw
  exact setByte_wf h ha

/-- If a code slice read answers, it answers the bytes, inside the segment. -/
theorem readCodeSlice_ok_iff {n : Nat} {bs : List Byte} :
    m.readCodeSlice a n = .ok bs ↔ a + n ≤ 16384 ∧ m.bytes .code a n = bs := by
  unfold Memory.readCodeSlice
  cases h : checkSlice .code a n with
  | error e =>
    have : ¬ a + n ≤ 16384 := fun ha => by rw [(checkSlice_ok_iff .code a (u := ())).mpr ha] at h; cases h
    simp [this]
  | ok u =>
    have : a + n ≤ 16384 := (checkSlice_ok_iff .code a).mp h
    simp [this]

theorem readCodeSlice_above {n : Nat} (h : 16384 < a + n) : m.readCodeSlice a n = .error .outOfBounds := by
  have hc : checkSlice .code a n = .error .outOfBounds := if_pos (.inr h)
  simp [Memory.readCodeSlice, hc]

/-- If a data slice write answers, it stored the bytes, inside the segment. -/
theorem writeDataSlice_ok_iff {bs : List Byte} {m' : Memory} :
    m.writeDataSlice bs a = .ok m' ↔ a + bs.length ≤ 8192 ∧ m.setBytes .data a bs = m' := by
  unfold Memory.writeDataSlice
  cases h : checkSlice .data a bs.length with
  | error e =>
    have : ¬ a + bs.length ≤ 8192 := fun ha => by rw [(checkSlice_ok_iff .data a (u := ())).mpr ha] at h; cases h
    simp [this]
  | ok u =>
    have : a + bs.length ≤ 8192 := (checkSlice_ok_iff .data a).mp h
    simp [this]

theorem writeDataSlice_wf {m m' : Memory} {bs : List Byte} {a : Nat} (h : m.wf) (hw : m.writeDataSlice bs a = .ok m') :
    m'.wf := by
  obtain ⟨ha, rfl⟩ := (writeDataSlice_ok_iff m a).mp hw
  exact setBytes_wf h ha

/-- If a load answers, it copied all its bytes, inside the segment. -/
theorem loadCode_ok_iff {bs : List Byte} {m' : Memory} {n : Nat} :
    m.loadCode a bs = .ok (m', n) ↔ a + bs.length ≤ 16384 ∧ m.setBytes .code a bs = m' ∧ bs.length = n := by
  unfold Memory.loadCode
  split
  · next h => simp at h ⊢; omega
  · split
    · next h => simp at h ⊢; omega
    · next h => simp at h ⊢; omega

theorem loadCode_wf {m m' : Memory} {bs : List Byte} {a n : Nat} (h : m.wf) (hw : m.loadCode a bs = .ok (m', n)) :
    m'.wf := by
  obtain ⟨ha, rfl, -⟩ := (loadCode_ok_iff m a).mp hw
  exact setBytes_wf h ha

end Sys2Proof.Machine
end

