-- ==== Sys2Proof/Laws/Exec.lean ====
section
/-! SUPPORT. What executing an instruction can do, said once: the length check, the operands, the common part, and one
lemma per instruction. -/

namespace Sys2Proof.Machine

/-! ## Arithmetic as numbers (44_add.md R161) -/

theorem zext16_toNat (b : Byte) : (zext16 b).toNat = b.toNat := by
  simp [zext16]; omega

theorem joinBytes_toNat (hi lo : Byte) : (joinBytes hi lo).toNat = hi.toNat * 256 + lo.toNat := by
  simp [joinBytes]; omega

theorem pcAfter_toNat (pc : Word) (L : Byte) : (pcAfter pc L).toNat = (pc.toNat + 2 + L.toNat) % 65536 := by
  simp [pcAfter]

theorem addByte_toNat (v : Word) (d : Byte) : (addByte v d).toNat = (v.toNat + d.toNat) % 65536 := by
  simp [addByte]

/-! ## Operands -/

theorem regOperand_ok_iff (b : Byte) (r : Reg) : regOperand b = .ok r ↔ b.toNat = r.val := by
  revert b r; decide

theorem regOperand_error (b : Byte) (h : 10 ≤ b.toNat) : regOperand b = .error .invalidRegister := by
  revert b; decide

/-- If a register operand is decoded at all, the error is `InvalidRegister` (30_encoding.md R100). -/
theorem regOperand_cases (b : Byte) :
    (∃ r : Reg, b.toNat = r.val ∧ regOperand b = .ok r) ∨ (10 ≤ b.toNat ∧ regOperand b = .error .invalidRegister) := by
  by_cases h : b.toNat < 10
  · exact .inl ⟨⟨b.toNat, h⟩, rfl, (regOperand_ok_iff b _).mpr rfl⟩
  · exact .inr ⟨by omega, regOperand_error b (by omega)⟩

theorem operandsRI_ok_iff (ops : List Byte) (r : Reg) (v : Word) :
    operandsRI ops = .ok (r, v) ↔
      ∃ rid imm rest, ops = rid :: imm :: rest ∧ rid.toNat = r.val ∧ v = zext16 imm := by
  match ops with
  | [] => simp [operandsRI]
  | [_] => simp [operandsRI]
  | rid :: imm :: rest =>
    simp only [operandsRI]
    rcases regOperand_cases rid with ⟨r', hr, hd⟩ | ⟨hr, hd⟩
    · simp only [hd, Except.ok.injEq, Prod.mk.injEq, List.cons.injEq]
      constructor
      · rintro ⟨rfl, rfl⟩; exact ⟨rid, imm, rest, ⟨rfl, rfl, rfl⟩, hr, rfl⟩
      · rintro ⟨_, _, _, ⟨rfl, rfl, rfl⟩, h, rfl⟩; exact ⟨Fin.ext (hr.symm.trans h), rfl⟩
    · simp only [hd, reduceCtorEq, List.cons.injEq, false_iff]
      rintro ⟨_, _, _, ⟨rfl, rfl, rfl⟩, h, -⟩
      have := r.isLt
      simp only [hw_NREG] at this
      omega

theorem operandsAR_ok_iff (ops : List Byte) (addr : Word) (r : Reg) :
    operandsAR ops = .ok (addr, r) ↔
      ∃ hi lo rid rest, ops = hi :: lo :: rid :: rest ∧ addr = joinBytes hi lo ∧ rid.toNat = r.val := by
  match ops with
  | [] => simp [operandsAR]
  | [_] => simp [operandsAR]
  | [_, _] => simp [operandsAR]
  | hi :: lo :: rid :: rest =>
    simp only [operandsAR]
    rcases regOperand_cases rid with ⟨r', hr, hd⟩ | ⟨hr, hd⟩
    · simp only [hd, Except.ok.injEq, Prod.mk.injEq, List.cons.injEq]
      constructor
      · rintro ⟨rfl, rfl⟩; exact ⟨hi, lo, rid, rest, ⟨rfl, rfl, rfl, rfl⟩, rfl, hr⟩
      · rintro ⟨_, _, _, _, ⟨rfl, rfl, rfl, rfl⟩, rfl, h⟩; exact ⟨rfl, Fin.ext (hr.symm.trans h)⟩
    · simp only [hd, reduceCtorEq, List.cons.injEq, false_iff]
      rintro ⟨_, _, _, _, ⟨rfl, rfl, rfl, rfl⟩, -, h⟩
      have := r.isLt
      simp only [hw_NREG] at this
      omega

/-! ## The common part -/

/-- The length check passes exactly when `L` reaches the operand count (30_encoding.md R98). -/
theorem checkLength_next_iff (need : Nat) (L : Byte) :
    checkLength hw.STRICT_LENGTH need L = .next () ↔ need ≤ L.toNat := by
  unfold checkLength raise
  split
  · simp; omega
  · simp; omega

theorem checkLength_of_le {need : Nat} {L : Byte} (h : need ≤ L.toNat) :
    checkLength hw.STRICT_LENGTH need L = .next () := (checkLength_next_iff need L).mpr h

theorem checkLength_of_lt {need : Nat} {L : Byte} (h : L.toNat < need) :
    checkLength hw.STRICT_LENGTH need L = .fault (.abort .shortOperands) := by
  simp [checkLength, raise, h]

/-- What executing can do (40_fetch_decode_advance.md R126): abort on a short length, fail as the effect does, or give
the effect's state with PC advanced. -/
theorem execute_cases (op : Opcode) (L : Byte) (effect : Result State) :
    (L.toNat < op.need ∧ execute op L effect = .fault (.abort .shortOperands)) ∨
    (∃ e, op.need ≤ L.toNat ∧ effect = .error e ∧ execute op L effect = .fault e) ∨
    (∃ u, op.need ≤ L.toNat ∧ effect = .ok u ∧ execute op L effect = .next (u.advance L)) := by
  by_cases h : L.toNat < op.need
  · exact .inl ⟨h, by simp [execute, checkLength_of_lt h]⟩
  · have hl := checkLength_of_le (Nat.le_of_not_lt h)
    cases he : effect with
    | error e => exact .inr (.inl ⟨e, by omega, rfl, by simp [execute, hl, raise]⟩)
    | ok u => exact .inr (.inr ⟨u, by omega, rfl, by simp [execute, hl]⟩)

theorem execute_next_iff (op : Opcode) (L : Byte) (effect : Result State) (t : State) :
    execute op L effect = .next t ↔ op.need ≤ L.toNat ∧ ∃ u, effect = .ok u ∧ t = u.advance L := by
  rcases execute_cases op L effect with ⟨hl, h⟩ | ⟨e, hl, he, h⟩ | ⟨u, hl, he, h⟩
  · rw [h]; simp; omega
  · rw [h]; simp [he]
  · rw [h]; simp [he, hl, eq_comm]

theorem execute_not_refused (op : Opcode) (L : Byte) (effect : Result State) (r : Refusal) :
    execute op L effect ≠ .refused r := by
  rcases execute_cases op L effect with ⟨-, h⟩ | ⟨e, -, -, h⟩ | ⟨u, -, -, h⟩ <;> rw [h] <;> simp

/-! ## One lemma per instruction -/

/-- All NOP can do (41_nop.md R141). -/
theorem execNop_eq (L : Byte) (ops : List Byte) (s : State) : execNop L ops s = .next (s.advance L) :=
  (execute_next_iff _ _ _ _).mpr ⟨Nat.zero_le _, s, rfl, rfl⟩

/-- All MOV can do when it answers a next state (42_mov.md R145). -/
theorem execMov_next_iff (L : Byte) (ops : List Byte) (s t : State) :
    execMov L ops s = .next t ↔ 2 ≤ L.toNat ∧ ∃ (rid imm : Byte) (rest : List Byte) (r : Reg),
      ops = rid :: imm :: rest ∧ rid.toNat = r.val ∧ t = (s.writeReg r (zext16 imm)).advance L := by
  unfold execMov
  rw [execute_next_iff]
  refine and_congr_right fun _ => ?_
  unfold movEffect
  constructor
  · rintro ⟨u, hu, rfl⟩
    cases ho : operandsRI ops with
    | error e => simp [ho] at hu
    | ok p =>
      obtain ⟨r, v⟩ := p
      obtain ⟨rid, imm, rest, rfl, hr, rfl⟩ := (operandsRI_ok_iff ops r v).mp ho
      simp only [ho, Except.ok.injEq] at hu
      subst hu
      exact ⟨rid, imm, rest, r, rfl, hr, rfl⟩
  · rintro ⟨rid, imm, rest, r, rfl, hr, rfl⟩
    exact ⟨_, by simp [(operandsRI_ok_iff (rid :: imm :: rest) r (zext16 imm)).mpr ⟨rid, imm, rest, rfl, hr, rfl⟩], rfl⟩

/-- All LDM can do when it answers a next state (43_ldm_stm.md R150). -/
theorem execLdm_next_iff (L : Byte) (ops : List Byte) (s t : State) :
    execLdm L ops s = .next t ↔ 3 ≤ L.toNat ∧ ∃ (hi lo rid : Byte) (rest : List Byte) (r : Reg),
      ops = hi :: lo :: rid :: rest ∧ rid.toNat = r.val ∧ (joinBytes hi lo).toNat < 8192 ∧
      t = (s.writeReg r (zext16 (s.mem.byte .data (joinBytes hi lo).toNat))).advance L := by
  unfold execLdm
  rw [execute_next_iff]
  refine and_congr_right fun _ => ?_
  unfold ldmEffect
  constructor
  · rintro ⟨u, hu, rfl⟩
    cases ho : operandsAR ops with
    | error e => simp [ho] at hu
    | ok p =>
      obtain ⟨addr, r⟩ := p
      obtain ⟨hi, lo, rid, rest, rfl, rfl, hr⟩ := (operandsAR_ok_iff ops addr r).mp ho
      simp only [ho] at hu
      cases hb : s.mem.read .data (joinBytes hi lo).toNat with
      | error e => simp [hb] at hu
      | ok b =>
        obtain ⟨ha, rfl⟩ := (read_ok_iff _ _ _).mp hb
        simp only [hb, Except.ok.injEq] at hu
        subst hu
        exact ⟨hi, lo, rid, rest, r, rfl, hr, ha, rfl⟩
  · rintro ⟨hi, lo, rid, rest, r, rfl, hr, ha, rfl⟩
    exact ⟨_, by
      simp [(operandsAR_ok_iff (hi :: lo :: rid :: rest) (joinBytes hi lo) r).mpr ⟨hi, lo, rid, rest, rfl, rfl, hr⟩,
        read_of_lt s.mem .data _ ha], rfl⟩

/-- All STM can do when it answers a next state (43_ldm_stm.md R151). -/
theorem execStm_next_iff (L : Byte) (ops : List Byte) (s t : State) :
    execStm L ops s = .next t ↔ 3 ≤ L.toNat ∧ ∃ (hi lo rid : Byte) (rest : List Byte) (r : Reg),
      ops = hi :: lo :: rid :: rest ∧ rid.toNat = r.val ∧ (joinBytes hi lo).toNat < 8192 ∧
      t = (s.withMem (s.mem.setByte .data (joinBytes hi lo).toNat (lowByte (s.readReg r)))).advance L := by
  unfold execStm
  rw [execute_next_iff]
  refine and_congr_right fun _ => ?_
  unfold stmEffect
  constructor
  · rintro ⟨u, hu, rfl⟩
    cases ho : operandsAR ops with
    | error e => simp [ho] at hu
    | ok p =>
      obtain ⟨addr, r⟩ := p
      obtain ⟨hi, lo, rid, rest, rfl, rfl, hr⟩ := (operandsAR_ok_iff ops addr r).mp ho
      simp only [ho] at hu
      cases hb : s.mem.write .data (joinBytes hi lo).toNat (lowByte (s.readReg r)) with
      | error e => simp [hb] at hu
      | ok m =>
        obtain ⟨ha, rfl⟩ := (write_ok_iff _ _ _ _).mp hb
        simp only [hb, Except.ok.injEq] at hu
        subst hu
        exact ⟨hi, lo, rid, rest, r, rfl, hr, ha, rfl⟩
  · rintro ⟨hi, lo, rid, rest, r, rfl, hr, ha, rfl⟩
    exact ⟨_, by
      simp [(operandsAR_ok_iff (hi :: lo :: rid :: rest) (joinBytes hi lo) r).mpr ⟨hi, lo, rid, rest, rfl, rfl, hr⟩,
        write_of_lt s.mem .data _ _ ha], rfl⟩

/-- All ADD can do when it answers a next state (44_add.md R160). -/
theorem execAdd_next_iff (L : Byte) (ops : List Byte) (s t : State) :
    execAdd L ops s = .next t ↔ 3 ≤ L.toNat ∧ ∃ (hi lo rid : Byte) (rest : List Byte) (r : Reg),
      ops = hi :: lo :: rid :: rest ∧ rid.toNat = r.val ∧ (joinBytes hi lo).toNat < 8192 ∧
      t = (s.writeReg r (addByte (s.readReg r) (s.mem.byte .data (joinBytes hi lo).toNat))).advance L := by
  unfold execAdd
  rw [execute_next_iff]
  refine and_congr_right fun _ => ?_
  unfold addEffect
  constructor
  · rintro ⟨u, hu, rfl⟩
    cases ho : operandsAR ops with
    | error e => simp [ho] at hu
    | ok p =>
      obtain ⟨addr, r⟩ := p
      obtain ⟨hi, lo, rid, rest, rfl, rfl, hr⟩ := (operandsAR_ok_iff ops addr r).mp ho
      simp only [ho] at hu
      cases hb : s.mem.read .data (joinBytes hi lo).toNat with
      | error e => simp [hb] at hu
      | ok b =>
        obtain ⟨ha, rfl⟩ := (read_ok_iff _ _ _).mp hb
        simp only [hb, Except.ok.injEq] at hu
        subst hu
        exact ⟨hi, lo, rid, rest, r, rfl, hr, ha, rfl⟩
  · rintro ⟨hi, lo, rid, rest, r, rfl, hr, ha, rfl⟩
    exact ⟨_, by
      simp [(operandsAR_ok_iff (hi :: lo :: rid :: rest) (joinBytes hi lo) r).mpr ⟨hi, lo, rid, rest, rfl, rfl, hr⟩,
        read_of_lt s.mem .data _ ha], rfl⟩

/-- All any instruction can do when it answers a next state: at most one register written, at most one data byte stored,
and then PC advanced. -/
theorem exec_next_cases {i : Instr} {s t : State} (h : exec i s = .next t) :
    t = s.advance i.len ∨
    (∃ r v, t = (s.writeReg r v).advance i.len) ∨
    (∃ a b, a < 8192 ∧ t = (s.withMem (s.mem.setByte .data a b)).advance i.len) := by
  cases i with
  | nop L ops =>
    rw [exec, execNop_eq, Host.Outcome.next.injEq] at h
    exact .inl h.symm
  | mov L ops =>
    obtain ⟨-, _, imm, _, r, -, -, rfl⟩ := (execMov_next_iff L ops s t).mp h
    exact .inr (.inl ⟨r, zext16 imm, rfl⟩)
  | ldm L ops =>
    obtain ⟨-, _, _, _, _, r, -, -, -, rfl⟩ := (execLdm_next_iff L ops s t).mp h
    exact .inr (.inl ⟨r, _, rfl⟩)
  | stm L ops =>
    obtain ⟨-, _, _, _, _, r, -, -, ha, rfl⟩ := (execStm_next_iff L ops s t).mp h
    exact .inr (.inr ⟨_, _, ha, rfl⟩)
  | add L ops =>
    obtain ⟨-, _, _, _, _, r, -, -, -, rfl⟩ := (execAdd_next_iff L ops s t).mp h
    exact .inr (.inl ⟨r, _, rfl⟩)

/-- Executing neither reads nor writes the model's own run field. -/
theorem exec_withRun (i : Instr) (s : State) (x : Run) :
    exec i (s.withRun x) = match exec i s with
      | .next t => .next (t.withRun x)
      | .fault e => .fault e
      | .refused r => .refused r := by
  have key : ∀ (op : Opcode) (L : Byte) (e e' : Result State), e' = e.map (State.withRun · x) →
      execute op L e' = match execute op L e with
        | .next t => .next (t.withRun x)
        | .fault e => .fault e
        | .refused r => .refused r := by
    rintro op L e _ rfl
    unfold execute
    cases checkLength hw.STRICT_LENGTH op.need L with
    | next _ => cases e <;> rfl
    | fault _ => rfl
    | refused _ => rfl
  cases i with
  | nop L ops => exact key .nop L (.ok s) _ rfl
  | mov L ops =>
    refine key .mov L _ _ ?_
    unfold movEffect
    cases operandsRI ops <;> rfl
  | ldm L ops =>
    refine key .ldm L _ _ ?_
    simp only [ldmEffect, withRun_mem]
    cases operandsAR ops with
    | error e => rfl
    | ok p => dsimp only; cases s.mem.read .data p.1.toNat <;> rfl
  | stm L ops =>
    refine key .stm L _ _ ?_
    simp only [stmEffect, withRun_mem, withRun_readReg]
    cases operandsAR ops with
    | error e => rfl
    | ok p => dsimp only; cases s.mem.write .data p.1.toNat (lowByte (s.readReg p.2)) <;> rfl
  | add L ops =>
    refine key .add L _ _ ?_
    simp only [addEffect, withRun_mem]
    cases operandsAR ops with
    | error e => rfl
    | ok p => dsimp only; cases s.mem.read .data p.1.toNat <;> rfl

/-- No instruction is refused with the default parameters. -/
theorem exec_not_refused (i : Instr) (s : State) (r : Refusal) : exec i s ≠ .refused r := by
  cases i <;> simp only [exec, execNop, execMov, execLdm, execStm, execAdd] <;> exact execute_not_refused _ _ _ _

end Sys2Proof.Machine
end

