-- ==== Sys2Proof/Laws/Fetch.lean ====
section
/-! SUPPORT. The decoder over bytes and over the code segment, and the turn of the sequential loop. -/

namespace Sys2Proof

theorem opDecode_opByte (op : Opcode) : opDecode hw (opByte hw op) = some op := by cases op <;> rfl

theorem opDecode_some_iff (b : Byte) (op : Opcode) : opDecode hw b = some op ↔ b = opByte hw op := by
  constructor
  · intro h
    unfold opDecode at h
    split at h
    · cases h; assumption
    · split at h
      · cases h; assumption
      · split at h
        · cases h; assumption
        · split at h
          · cases h; assumption
          · split at h
            · cases h; assumption
            · cases h
  · rintro rfl; exact opDecode_opByte op

/-- The decoder on the bytes of an instruction it reads on from. -/
theorem decode_cons_cons {op : Opcode} {b0 : Byte} (h : opDecode hw b0 = some op) (hn : op ≠ .nop) (L : Byte)
    (t : List Byte) (ht : L.toNat ≤ t.length) :
    decode (b0 :: L :: t) = .ok (.instr (op.instr L (t.take L.toNat)) (t.drop L.toNat)) := by
  cases op <;> simp_all [decode]

theorem decode_nop {b0 : Byte} (h : opDecode hw b0 = some .nop) (t : List Byte) :
    decode (b0 :: t) = .ok .endOfStream := by simp [decode, h]

theorem decode_illegal {b0 : Byte} (h : opDecode hw b0 = none) (t : List Byte) :
    decode (b0 :: t) = .error .invalidOpcode := by simp [decode, h]

namespace Machine

theorem readsOn_of_some {b0 : Byte} {op : Opcode} (h : opDecode hw b0 = some op) (hn : op ≠ .nop) :
    readsOn b0 = true := by cases op <;> simp_all [readsOn]

variable (m : Memory) (pc : Nat)

theorem decodeAt_above (h : 16384 < pc) : decodeAt m pc = .error .outOfBounds := by
  simp [decodeAt, fetch, read_above m .code pc h]

theorem decodeAt_edge : decodeAt m 16384 = .error (.abort .edgeAccess) := by
  have := read_edge m .code
  simp only [cap_code] at this
  simp [decodeAt, fetch, this]

theorem decodeAt_illegal (hp : pc < 16384) (h : opDecode hw (m.byte .code pc) = none) :
    decodeAt m pc = .error .invalidOpcode := by
  have hr : readsOn (m.byte .code pc) = false := by simp [readsOn, h]
  simp [decodeAt, fetch, read_of_lt m .code pc hp, hr, decode_illegal h, decodeFault]

theorem decodeAt_nop (hp : pc < 16384) (h : opDecode hw (m.byte .code pc) = some .nop) :
    decodeAt m pc = .ok .endOfStream := by
  have hr : readsOn (m.byte .code pc) = false := by simp [readsOn, h]
  simp [decodeAt, fetch, read_of_lt m .code pc hp, hr, decode_nop h]

variable {op : Opcode} (hn : op ≠ .nop)
include hn

/-- The decoder reads an instruction that lies inside the code segment (40_fetch_decode_advance.md R125). -/
theorem decodeAt_instr (h : opDecode hw (m.byte .code pc) = some op)
    (hp : pc + 2 + (m.byte .code (pc + 1)).toNat ≤ 16384) :
    decodeAt m pc = .ok (.instr (op.instr (m.byte .code (pc + 1))
      (m.bytes .code (pc + 2) (m.byte .code (pc + 1)).toNat)) []) := by
  have h0 := read_of_lt m .code pc (show pc < 16384 by omega)
  have h1 := read_of_lt m .code (pc + 1) (show pc + 1 < 16384 by omega)
  have h2 := (readCodeSlice_ok_iff m (pc + 2)).mpr ⟨hp, rfl⟩
  have hl := bytes_length m .code (pc + 2) (m.byte .code (pc + 1)).toNat
  simp [decodeAt, fetch, h0, readsOn_of_some h hn, h1, h2, decode_cons_cons h hn _ _ (Nat.le_of_eq hl.symm), hl,
    List.take_of_length_le, List.drop_of_length_le]

theorem decodeAt_last (h : opDecode hw (m.byte .code 16383) = some op) :
    decodeAt m 16383 = .error (.abort .edgeAccess) := by
  have h0 := read_of_lt m .code 16383 (show 16383 < 16384 by omega)
  have h1 := read_edge m .code
  simp only [cap_code] at h1
  simp [decodeAt, fetch, h0, readsOn_of_some h hn, h1]

theorem decodeAt_overrun (hp : pc < 16383) (h : opDecode hw (m.byte .code pc) = some op)
    (hl : 16384 < pc + 2 + (m.byte .code (pc + 1)).toNat) : decodeAt m pc = .error .outOfBounds := by
  have h0 := read_of_lt m .code pc (show pc < 16384 by omega)
  have h1 := read_of_lt m .code (pc + 1) (show pc + 1 < 16384 by omega)
  have h2 := readCodeSlice_above m (pc + 2) hl
  simp [decodeAt, fetch, h0, readsOn_of_some h hn, h1, h2]

omit hn in
/-- If the decoder answers, it answers one of these: end-of-stream at a NOP byte, or the instruction whose header is
there, inside the code segment, with nothing after it. -/
theorem decodeAt_ok_cases {d : Decoded} (h : decodeAt m pc = .ok d) :
    (d = .endOfStream ∧ pc < 16384 ∧ opDecode hw (m.byte .code pc) = some .nop) ∨
    (∃ op, op ≠ .nop ∧ opDecode hw (m.byte .code pc) = some op ∧ pc + 2 + (m.byte .code (pc + 1)).toNat ≤ 16384 ∧
      d = .instr (op.instr (m.byte .code (pc + 1)) (m.bytes .code (pc + 2) (m.byte .code (pc + 1)).toNat)) []) := by
  rcases Nat.lt_trichotomy pc 16384 with hp | rfl | hp
  · cases ho : opDecode hw (m.byte .code pc) with
    | none => rw [decodeAt_illegal m pc hp ho] at h; cases h
    | some op =>
      by_cases hn : op = .nop
      · subst hn
        rw [decodeAt_nop m pc hp ho] at h
        cases h
        exact .inl ⟨rfl, hp, rfl⟩
      · by_cases hq : pc = 16383
        · subst hq; rw [decodeAt_last m hn ho] at h; cases h
        · by_cases hl : pc + 2 + (m.byte .code (pc + 1)).toNat ≤ 16384
          · rw [decodeAt_instr m pc hn ho hl] at h
            cases h
            exact .inr ⟨op, hn, rfl, hl, rfl⟩
          · rw [decodeAt_overrun m pc hn (by omega) ho (by omega)] at h; cases h
  · rw [decodeAt_edge m] at h; cases h
  · rw [decodeAt_above m pc hp] at h; cases h

end Machine

namespace Machine

/-- All one turn of the sequential loop can do when it answers a next state: halt with nothing changed, or execute the
decoded instruction. -/
theorem sequentialTurn_next_cases {s t : State} (h : sequentialTurn s = .next t) :
    (decodeAt s.mem s.pc.toNat = .ok .endOfStream ∧ t = s.withRun .halted) ∨
    (∃ i rest, decodeAt s.mem s.pc.toNat = .ok (.instr i rest) ∧ exec i (s.withRun .sequential) = .next t) := by
  unfold sequentialTurn at h
  split at h
  · cases h
  · next hd => cases h; exact .inl ⟨hd, rfl⟩
  · next i rest hd => exact .inr ⟨i, rest, hd, h⟩

/-- The step outside the concurrent mode is a turn of the sequential loop. -/
theorem step_eq_sequentialTurn {s : State} (h1 : ∀ c n, s.run ≠ .scanning c n) (h2 : ∀ ts, s.run ≠ .concurrent ts) :
    step s = sequentialTurn s := by
  unfold step
  cases hr : s.run <;> simp_all

theorem step_scanning {s : State} {c n : Nat} (h : s.run = .scanning c n) : step s = scanTurn c n s := by
  simp [step, h]

theorem step_concurrent {s : State} {ts : List Task} (h : s.run = .concurrent ts) : step s = tasksTurn ts s := by
  simp [step, h]

end Machine
end Sys2Proof
end

