-- ==== Sys2Proof/Laws/Concurrent.lean ====
section
/-! SUPPORT. What a turn of the scan, one atomic action and the join can do, said once. -/

namespace Sys2Proof.Machine

/-! ## The free choice -/

theorem choose_mem {α : Type} {pick : Nat} {l : List α} {x : α} (h : choose pick l = some x) : x ∈ l := by
  match l with
  | [] => simp [choose] at h
  | [y] => simp [choose] at h; simp [h]
  | y :: z :: l =>
    simp only [choose] at h
    exact List.mem_of_getElem? h

theorem choose_eq_none_iff {α : Type} {pick : Nat} {l : List α} : choose pick l = none ↔ l = [] := by
  match l with
  | [] => simp [choose]
  | [y] => simp [choose]
  | y :: z :: l =>
    have := Nat.mod_lt pick (show l.length + 2 > 0 by omega)
    simp only [choose, List.getElem?_eq_none_iff, List.length_cons, reduceCtorEq, iff_false]
    omega

/-- The choice can fall on every element. -/
theorem choose_can {α : Type} {l : List α} {x : α} (h : x ∈ l) : ∃ pick, choose pick l = some x := by
  match l with
  | [] => simp at h
  | [y] => exact ⟨0, by simpa [choose, eq_comm] using h⟩
  | y :: z :: l =>
    obtain ⟨k, hk⟩ := List.mem_iff_getElem?.mp h
    obtain ⟨hlt, -⟩ := List.getElem?_eq_some_iff.mp hk
    refine ⟨k, ?_⟩
    simp only [choose]
    rw [Nat.mod_eq_of_lt (by simp only [List.length_cons] at hlt; omega), hk]

/-! ## The unfinished tasks and the errors -/

theorem mem_liveTasks {k j left : Nat} {a : Action} {ts : List Task} :
    (j, left, a) ∈ liveTasks k ts ↔ k ≤ j ∧ ts[j - k]? = some (.live left a) := by
  induction ts generalizing k with
  | nil => simp [liveTasks]
  | cons t ts ih =>
    have hs : ∀ (P : Prop), (k + 1 ≤ j ∧ ts[j - (k + 1)]? = some (.live left a)) ↔
        (k < j ∧ (t :: ts)[j - k]? = some (.live left a)) := fun _ => by
      constructor
      · rintro ⟨h, hj⟩
        have : j - k = (j - (k + 1)) + 1 := by omega
        exact ⟨by omega, by rw [this]; simpa using hj⟩
      · rintro ⟨h, hj⟩
        have : j - k = (j - (k + 1)) + 1 := by omega
        exact ⟨by omega, by rw [this] at hj; simpa using hj⟩
    cases t with
    | live left' a' =>
      simp only [liveTasks, List.mem_cons, ih, hs True, Prod.mk.injEq]
      constructor
      · rintro (⟨rfl, rfl, rfl⟩ | ⟨h, hj⟩)
        · simp
        · exact ⟨by omega, hj⟩
      · rintro ⟨h, hj⟩
        rcases Nat.eq_or_lt_of_le h with rfl | h
        · simp at hj; exact .inl ⟨rfl, hj.1.symm, hj.2.symm⟩
        · exact .inr ⟨h, hj⟩
    | returned =>
      simp only [liveTasks, ih, hs True]
      constructor
      · rintro ⟨h, hj⟩; exact ⟨by omega, hj⟩
      · rintro ⟨h, hj⟩
        rcases Nat.eq_or_lt_of_le h with rfl | h
        · simp at hj
        · exact ⟨h, hj⟩
    | failed e =>
      simp only [liveTasks, ih, hs True]
      constructor
      · rintro ⟨h, hj⟩; exact ⟨by omega, hj⟩
      · rintro ⟨h, hj⟩
        rcases Nat.eq_or_lt_of_le h with rfl | h
        · simp at hj
        · exact ⟨h, hj⟩

theorem mem_taskErrors {e : Fault} {ts : List Task} : e ∈ taskErrors ts ↔ .failed e ∈ ts := by
  induction ts with
  | nil => simp [taskErrors]
  | cons t ts ih => cases t <;> simp [taskErrors, ih]

theorem anyAborted_iff {ts : List Task} : anyAborted ts = true ↔ .failed .internalFault ∈ ts := by
  rw [anyAborted, List.contains_iff_mem, mem_taskErrors]

theorem liveTasks_eq_nil_iff {ts : List Task} : liveTasks 0 ts = [] ↔ ∀ t ∈ ts, t.finished := by
  rw [List.eq_nil_iff_forall_not_mem]
  constructor
  · intro h t ht
    obtain ⟨j, hj⟩ := List.mem_iff_getElem?.mp ht
    cases t with
    | live left a => exact absurd (mem_liveTasks.mpr ⟨Nat.zero_le j, by simpa using hj⟩) (h (j, left, a))
    | returned => trivial
    | failed e => trivial
  · rintro h ⟨j, left, a⟩ hx
    have := (mem_liveTasks.mp hx).2
    exact h _ (List.mem_of_getElem? this)

/-! ## The scan -/

/-- All one turn of the scan can do when it answers a next state (60_exceptions.md R192): only the run field changes. -/
theorem scanTurn_next_cases {c n : Nat} {s t : State} (h : scanTurn c n s = .next t) :
    c < 16384 ∧
    ((opDecode hw (s.mem.byte .code c) = some .nop ∧ t = s.withRun (.concurrent (dispatchTasks n))) ∨
     (c + 1 < 16384 ∧
      t = s.withRun (.scanning (c + 2 + (s.mem.byte .code (c + 1)).toNat) (n + 1)))) := by
  unfold scanTurn at h
  cases hb : s.mem.read .code c with
  | error e => simp [hb, raise] at h
  | ok b0 =>
    obtain ⟨hc, rfl⟩ := (read_ok_iff _ _ _).mp hb
    simp only [hb] at h
    refine ⟨hc, ?_⟩
    split at h
    · simp [raise] at h
    · next ho => cases h; exact .inl ⟨ho, rfl⟩
    · next op _ ho =>
      cases hL : s.mem.read .code (c + 1) with
      | error e => simp [hL, raise] at h
      | ok L =>
        obtain ⟨hc', rfl⟩ := (read_ok_iff _ _ _).mp hL
        simp only [hL, Host.Outcome.next.injEq] at h
        exact .inr ⟨hc', h.symm⟩

theorem scanTurn_not_refused (c n : Nat) (s : State) (r : Refusal) : scanTurn c n s ≠ .refused r := by
  unfold scanTurn raise
  repeat' split
  all_goals simp

/-! ## One atomic action -/

/-- How many actions a task has left at most in its iteration, this one counted (60_exceptions.md R197). -/
def Action.rank : Action → Nat
  | .fetchPc => 7
  | .decode _ => 6
  | .addData _ _ _ => 5
  | .ldmData _ _ _ => 4
  | .stmReg _ _ _ => 4
  | .addReg _ _ _ => 4
  | .stmData _ _ _ => 3
  | .writeReg _ _ _ => 3
  | .advanceRead _ => 2
  | .advanceWrite _ => 1

/-- How many actions a task has left at most. -/
def Task.rank : Task → Nat
  | .live left a => 7 * (left - 1) + a.rank
  | .returned => 0
  | .failed _ => 0

theorem afterCheck_of_lt {op : Opcode} {L : Byte} (h : L.toNat < op.need) (first : Result Action) :
    afterCheck op L first = .fault (.abort .shortOperands) := by simp [afterCheck, checkLength_of_lt h]

theorem afterCheck_of_le {op : Opcode} {L : Byte} (h : op.need ≤ L.toNat) (first : Result Action) :
    afterCheck op L first = ofResult first := by simp [afterCheck, checkLength_of_le h]

/-- What follows the length check is a fault or the action it is given. -/
theorem afterCheck_cases (op : Opcode) (L : Byte) (first : Result Action) :
    (∃ e, afterCheck op L first = .fault e) ∨ (∃ a, first = .ok a ∧ afterCheck op L first = .next a) := by
  by_cases h : L.toNat < op.need
  · exact .inl ⟨_, afterCheck_of_lt h first⟩
  · rw [afterCheck_of_le (Nat.le_of_not_lt h)]
    cases first with
    | error e => exact .inl ⟨e, rfl⟩
    | ok a => exact .inr ⟨a, rfl, rfl⟩

/-- All the first action of an instruction can be. -/
theorem firstAction_cases (i : Instr) :
    (∃ e, firstAction i = .fault e) ∨ (∃ a, firstAction i = .next a ∧ a.rank ≤ 5) := by
  cases i with
  | nop L ops =>
    rcases afterCheck_cases .nop L (.ok (.advanceRead L)) with h | ⟨a, ha, h⟩
    · exact .inl h
    · cases ha; exact .inr ⟨_, h, by simp [Action.rank]⟩
  | mov L ops =>
    rcases afterCheck_cases .mov L ((operandsRI ops).map fun (r, imm) => .writeReg r imm L) with h | ⟨a, ha, h⟩
    · exact .inl h
    · refine .inr ⟨a, h, ?_⟩
      cases ho : operandsRI ops <;> simp [ho, Except.map] at ha
      simp [← ha, Action.rank]
  | ldm L ops =>
    rcases afterCheck_cases .ldm L ((operandsAR ops).map fun (addr, r) => .ldmData addr r L) with h | ⟨a, ha, h⟩
    · exact .inl h
    · refine .inr ⟨a, h, ?_⟩
      cases ho : operandsAR ops <;> simp [ho, Except.map] at ha
      simp [← ha, Action.rank]
  | stm L ops =>
    rcases afterCheck_cases .stm L ((operandsAR ops).map fun (addr, r) => .stmReg addr r L) with h | ⟨a, ha, h⟩
    · exact .inl h
    · refine .inr ⟨a, h, ?_⟩
      cases ho : operandsAR ops <;> simp [ho, Except.map] at ha
      simp [← ha, Action.rank]
  | add L ops =>
    rcases afterCheck_cases .add L ((operandsAR ops).map fun (addr, r) => .addData addr r L) with h | ⟨a, ha, h⟩
    · exact .inl h
    · refine .inr ⟨a, h, ?_⟩
      cases ho : operandsAR ops <;> simp [ho, Except.map] at ha
      simp [← ha, Action.rank]

/-- All one atomic action can do (60_exceptions.md R197): it always answers; it changes nothing shared, or one register,
or one data byte; and it brings the task closer to its end. -/
theorem doAction_cases (left : Nat) (a : Action) (s : State) :
    ∃ t u, doAction left a s = .next (t, u) ∧
      (u = s ∨ (∃ r v, u = s.writeReg r v) ∨
        (∃ b x, b < 8192 ∧ u = s.withMem (s.mem.setByte .data b x))) ∧
      (t.finished ∨ ∃ left' a', t = .live left' a' ∧ left' ≤ left ∧ (1 ≤ left → 1 ≤ left')) ∧
      t.rank < (Task.live left a).rank := by
  cases a with
  | fetchPc =>
    exact ⟨_, _, rfl, .inl rfl, .inr ⟨_, _, rfl, Nat.le_refl _, id⟩, by simp [Task.rank, Action.rank]⟩
  | decode p =>
    simp only [doAction]
    split
    · exact ⟨_, _, rfl, .inl rfl, .inl trivial, by simp [Task.rank, Action.rank]⟩
    · exact ⟨_, _, rfl, .inl rfl, .inl trivial, by simp [Task.rank, Action.rank]⟩
    · next i _ _ =>
      rcases firstAction_cases i with ⟨e, he⟩ | ⟨f, hf, hr⟩
      · rw [he]
        exact ⟨_, _, rfl, .inl rfl, .inl trivial, by simp [Task.rank, Action.rank]⟩
      · rw [hf]
        refine ⟨_, _, rfl, .inl rfl, .inr ⟨_, _, rfl, Nat.le_refl _, id⟩, ?_⟩
        show 7 * (left - 1) + f.rank < 7 * (left - 1) + 6
        omega
  | ldmData addr r L =>
    simp only [doAction]
    split
    · exact ⟨_, _, rfl, .inl rfl, .inl trivial, by simp [Task.rank, Action.rank]⟩
    · exact ⟨_, _, rfl, .inl rfl, .inr ⟨_, _, rfl, Nat.le_refl _, id⟩, by simp [Task.rank, Action.rank]⟩
  | stmReg addr r L =>
    exact ⟨_, _, rfl, .inl rfl, .inr ⟨_, _, rfl, Nat.le_refl _, id⟩, by simp [Task.rank, Action.rank]⟩
  | stmData addr b L =>
    simp only [doAction]
    split
    · exact ⟨_, _, rfl, .inl rfl, .inl trivial, by simp [Task.rank, Action.rank]⟩
    · next m hm =>
      obtain ⟨ha, rfl⟩ := (write_ok_iff _ _ _ _).mp hm
      exact ⟨_, _, rfl, .inr (.inr ⟨_, _, ha, rfl⟩), .inr ⟨_, _, rfl, Nat.le_refl _, id⟩, by
        simp [Task.rank, Action.rank]⟩
  | addData addr r L =>
    simp only [doAction]
    split
    · exact ⟨_, _, rfl, .inl rfl, .inl trivial, by simp [Task.rank, Action.rank]⟩
    · exact ⟨_, _, rfl, .inl rfl, .inr ⟨_, _, rfl, Nat.le_refl _, id⟩, by simp [Task.rank, Action.rank]⟩
  | addReg d r L =>
    exact ⟨_, _, rfl, .inl rfl, .inr ⟨_, _, rfl, Nat.le_refl _, id⟩, by simp [Task.rank, Action.rank]⟩
  | writeReg r v L =>
    exact ⟨_, _, rfl, .inr (.inl ⟨r, v, rfl⟩), .inr ⟨_, _, rfl, Nat.le_refl _, id⟩, by
      simp [Task.rank, Action.rank]⟩
  | advanceRead L =>
    exact ⟨_, _, rfl, .inl rfl, .inr ⟨_, _, rfl, Nat.le_refl _, id⟩, by simp [Task.rank, Action.rank]⟩
  | advanceWrite v =>
    by_cases hl : left ≤ 1
    · exact ⟨.returned, s.writeReg Reg.PC v, by simp [doAction, hl], .inr (.inl ⟨_, _, rfl⟩), .inl trivial, by
        simp [Task.rank, Action.rank]⟩
    · refine ⟨.live (left - 1) .fetchPc, s.writeReg Reg.PC v, by simp [doAction, hl], .inr (.inl ⟨_, _, rfl⟩),
        .inr ⟨_, _, rfl, by omega, by omega⟩, ?_⟩
      simp only [Task.rank, Action.rank]
      omega

/-! ## One turn of the dispatch phase -/

/-- All one turn of the dispatch phase can do: with every task finished, the join; otherwise some unfinished task finds a
lock poisoned, or takes its next atomic action. -/
theorem tasksTurn_cases (ts : List Task) (s : State) :
    ((∀ t ∈ ts, t.finished) ∧ tasksTurn ts s = joinTasks ts s) ∨
    (∃ k left a, ts[k]? = some (.live left a) ∧
      ((.failed .internalFault ∈ ts ∧
          tasksTurn ts s = .next ((s.withRun (.concurrent (ts.set k (.failed .lockPoisoned)))).drawn)) ∨
       (∃ t u, doAction left a s = .next (t, u) ∧
          tasksTurn ts s = .next ((u.withRun (.concurrent (ts.set k t))).drawn)))) := by
  unfold tasksTurn
  split
  · next hc => exact .inl ⟨liveTasks_eq_nil_iff.mp (choose_eq_none_iff.mp hc), rfl⟩
  · next k left a hc =>
    have hk := (mem_liveTasks.mp (choose_mem hc)).2
    refine .inr ⟨k, left, a, by simpa using hk, ?_⟩
    split
    · next hp =>
      exact .inl ⟨anyAborted_iff.mp (Bool.and_eq_true_iff.mp hp).1, rfl⟩
    · obtain ⟨t, u, hd, -⟩ := doAction_cases left a s
      rw [hd]
      exact .inr ⟨t, u, rfl, rfl⟩

/-- All the join can do (60_exceptions.md R201). -/
theorem joinTasks_cases (ts : List Task) (s : State) :
    ((∀ e, .failed e ∉ ts) ∧ joinTasks ts s = .next (s.withRun .joined)) ∨
    (∃ e, .failed e ∈ ts ∧ joinTasks ts s = .fault e) := by
  unfold joinTasks
  split
  · next hc =>
    refine .inl ⟨fun e he => ?_, rfl⟩
    have := choose_eq_none_iff.mp hc
    rw [← mem_taskErrors, this] at he
    simp at he
  · next e hc => exact .inr ⟨e, mem_taskErrors.mp (choose_mem hc), rfl⟩

/-! ## What an error or an abort leaves -/

/-- What has aborted: an abort of the operation itself, or of one of its tasks. -/
theorem aborts_iff {e : Fault} {r : Run} :
    e.aborts r = true ↔ (∃ reason, e = .abort reason) ∨ ∃ ts, r = .concurrent ts ∧ .failed .internalFault ∈ ts := by
  cases e <;> cases r <;> simp [Fault.aborts, anyAborted_iff]

/-- All that is left after an error: nothing after an abort, and otherwise the same machine with no run in progress. -/
theorem afterFault_some_iff {s u : State} {e : Fault} :
    s.afterFault e = some u ↔ e.aborts s.run = false ∧ u = s.withRun .idle := by
  unfold State.afterFault
  cases e.aborts s.run <;> simp [eq_comm]

end Sys2Proof.Machine
end

