-- ==== Sys2Proof/Laws/PerInstr.lean ====
section
/-! SUPPORT. Facts about every instruction as syntax, one lemma per constructor. -/

namespace Sys2Proof.Laws

/-- A well-formed instruction occupies `2 + L` bytes (30_encoding.md R90, R102). -/
def EncodeLength.Statement (i : Instr) : Prop := i.WellFormed → (encode i).length = 2 + i.len.toNat

theorem EncodeLength.nop (L : Byte) (ops : List Byte) : EncodeLength.Statement (.nop L ops) := by
  intro h
  have h' : ops.length = L.toNat := h
  simp [encode, Instr.ops, Instr.len]; omega

theorem EncodeLength.mov (L : Byte) (ops : List Byte) : EncodeLength.Statement (.mov L ops) := by
  intro h
  have h' : ops.length = L.toNat := h
  simp [encode, Instr.ops, Instr.len]; omega

theorem EncodeLength.ldm (L : Byte) (ops : List Byte) : EncodeLength.Statement (.ldm L ops) := by
  intro h
  have h' : ops.length = L.toNat := h
  simp [encode, Instr.ops, Instr.len]; omega

theorem EncodeLength.stm (L : Byte) (ops : List Byte) : EncodeLength.Statement (.stm L ops) := by
  intro h
  have h' : ops.length = L.toNat := h
  simp [encode, Instr.ops, Instr.len]; omega

theorem EncodeLength.add (L : Byte) (ops : List Byte) : EncodeLength.Statement (.add L ops) := by
  intro h
  have h' : ops.length = L.toNat := h
  simp [encode, Instr.ops, Instr.len]; omega

end Sys2Proof.Laws
end

