-- ==== Sys2Proof/Laws/Run.lean ====
section
/-! SUPPORT. Running the machine for some number of steps. -/

namespace Sys2Proof.Machine

theorem run_zero (s : State) : Sys2Proof.core.run 0 s = .next s := rfl

theorem run_succ_of_next {s t : State} (k : Nat) (h : step s = .next t) :
    Sys2Proof.core.run (k + 1) s = Sys2Proof.core.run k t := by
  have h' : Sys2Proof.core.step s = .next t := h
  simp only [Host.Core.run, h']

theorem run_succ_of_fault {s : State} {e : Fault} (k : Nat) (h : step s = .fault e) :
    Sys2Proof.core.run (k + 1) s = .fault e := by
  have h' : Sys2Proof.core.step s = .fault e := h
  simp only [Host.Core.run, h']

theorem run_succ_of_refused {s : State} {r : Refusal} (k : Nat) (h : step s = .refused r) :
    Sys2Proof.core.run (k + 1) s = .refused r := by
  have h' : Sys2Proof.core.step s = .refused r := h
  simp only [Host.Core.run, h']

/-- What `k + 1` steps can do when they answer a state. -/
theorem run_succ_next {s t : State} {k : Nat} (h : Sys2Proof.core.run (k + 1) s = .next t) :
    ∃ u, step s = .next u ∧ Sys2Proof.core.run k u = .next t := by
  cases hs : step s with
  | next u => exact ⟨u, rfl, by rw [← run_succ_of_next k hs]; exact h⟩
  | fault e => rw [run_succ_of_fault k hs] at h; cases h
  | refused r => rw [run_succ_of_refused k hs] at h; cases h

/-- Steps after steps. -/
theorem run_add {s t : State} {j : Nat} (k : Nat) (h : Sys2Proof.core.run j s = .next t) :
    Sys2Proof.core.run (j + k) s = Sys2Proof.core.run k t := by
  induction j generalizing s with
  | zero =>
    have h' : (Host.Outcome.next s : Host.Outcome State Fault Refusal) = .next t := h
    cases h'
    rw [Nat.zero_add]
  | succ j ih =>
    obtain ⟨u, hu, h'⟩ := run_succ_next h
    rw [show j + 1 + k = (j + k) + 1 by omega, run_succ_of_next _ hu]
    exact ih h'

/-- Outside the concurrent mode a step is a turn of the sequential loop. -/
theorem step_of_takesTurn {s : State} (h : s.run.takesTurn = true) : step s = sequentialTurn s := by
  unfold step
  cases hr : s.run <;> simp_all [Run.takesTurn]

end Sys2Proof.Machine
end

