-- ==== Sys2Proof/Tests/Slice0.lean ====
section
/-! SUPPORT. Tests of the model on small states, with expected results from 95_test_vectors.md (its vector's name is in each
comment) or from the rule named; and a witness for the hypotheses of each statement that has any. -/

namespace Sys2Proof.Tests

open Sys2Proof.Machine

/-! ## Helpers -/

/-- A memory with bytes from a code address up and from a data address up, zero elsewhere. -/
def mem (a : Nat) (code : List Byte) (d : Nat) (data : List Byte) : Memory :=
  ((State.reset.mem.setBytes .code a code).setBytes .data d data)

/-- A machine between runs: PC, that memory, and one register. -/
def at' (pc : Word) (m : Memory) (r : Reg := Reg.A) (v : Word := 0) : State :=
  ((State.reset.withMem m).writeReg r v).writeReg Reg.PC pc

/-- The state an outcome goes on with. -/
def nextOf {α : Type} : Host.Outcome α Fault Refusal → Option α
  | .next t => some t
  | .fault _ => none
  | .refused _ => none

/-- The fault an outcome stops with. -/
def faultOf {α : Type} : Host.Outcome α Fault Refusal → Option Fault
  | .next _ => none
  | .fault e => some e
  | .refused _ => none

/-- A register and PC after an outcome. -/
def regPc (r : Reg) (o : Host.Outcome State Fault Refusal) : Option (Word × Word) :=
  (nextOf o).map fun t => (t.readReg r, t.pc)

/-- A data byte and PC after an outcome. -/
def dataPc (a : Nat) (o : Host.Outcome State Fault Refusal) : Option (Byte × Word) :=
  (nextOf o).map fun t => (t.mem.byte .data a, t.pc)

/-- The MOV of the source's scenario at the last place it fits. -/
def movAtEnd : State := at' 16380 (mem 16380 [0x01, 0x02, 0x00, 0x01] 8191 [0x7F])
/-- A MOV of A, then a LDM that fails: V-ERR-6. -/
def movThenBadLdm : State := at' 0 (mem 0 [0x01, 0x02, 0x00, 0x07, 0x02, 0x03, 0x20, 0x01, 0x01] 0 [])
/-- The same as one concurrent task. -/
def oneTask : State := movAtEnd.withRun (.concurrent [.live 1 .fetchPc])

/-! ## Well-formedness: each check refuses an ill-formed term -/

theorem test_ill_formed_short_payload : ¬(Instr.mov 2 [0]).WellFormed := by decide
theorem test_ill_formed_long_payload : ¬(Instr.nop 0 [0]).WellFormed := by decide
theorem test_config_xlen : ¬({ XLEN := 32 } : Config).WellFormed := by decide
theorem test_config_nreg : ¬({ NREG := 12 } : Config).WellFormed := by decide
theorem test_config_opcodes_collide : ¬({ OPC_LDM := 0x01 } : Config).WellFormed := by decide
theorem test_config_regid_collide : ¬({ REGID := [0, 1, 2, 3, 4, 5, 6, 7, 8, 9, 0] } : Config).WellFormed := by decide
theorem test_config_regid_short : ¬({ REGID := [0, 1] } : Config).WellFormed := by decide
theorem test_config_capacities : ¬({ CAP_DATA := 8193 } : Config).WellFormed := by decide
theorem test_hw_well_formed : hw.WellFormed := by decide

/-! ## Decoding: words written out from 30_encoding.md R96 and R103, lowest address first -/

/-- V-DEC-2. -/
theorem test_decode_nop : decode [0x00] = .ok .endOfStream := by decide
/-- V-DEC-1. -/
theorem test_decode_mov : decode [0x01, 0x02, 0x00, 0x01] = .ok (.instr (.mov 2 [0x00, 0x01]) []) := by decide
/-- V-DEC-4: byte 0 is 0000_0010, byte 1 is 0000_0011, then address 0x1234 and register B. -/
theorem test_decode_ldm :
    decode [0b00000010, 0b00000011, 0b00010010, 0b00110100, 0b00000001] =
      .ok (.instr (.ldm 3 [0x12, 0x34, 0x01]) []) := by decide
/-- R103. -/
theorem test_decode_stm :
    decode [0b00000011, 0b00000011, 0b00000000, 0b00010000, 0b00000000] =
      .ok (.instr (.stm 3 [0x00, 0x10, 0x00]) []) := by decide
/-- R103. -/
theorem test_decode_add :
    decode [0b00000100, 0b00000011, 0b00011111, 0b11111111, 0b00001001] =
      .ok (.instr (.add 3 [0x1F, 0xFF, 0x09]) []) := by decide
/-- V-DEC-3. -/
theorem test_decode_illegal : decode [0x05, 0x00] = .error .invalidOpcode ∧ decode [0xFF, 0x00] = .error .invalidOpcode ∧
    decode [0x80, 0x03, 0x00, 0x00, 0x00] = .error .invalidOpcode := by decide
/-- V-DEC-6. -/
theorem test_decode_long_length :
    decode [0x01, 0x04, 0x00, 0x2A, 0xEE, 0xEE] = .ok (.instr (.mov 4 [0x00, 0x2A, 0xEE, 0xEE]) []) := by decide
/-- V-MOV-6b: with eleven slots the byte 0x0A names DP. -/
theorem test_regDecode_dp : regDecode hw 0x0A = none ∧ (regDecode { NREG := 11 } 0x0A).map Fin.val = some 10 := by decide
/-- The opcode table's rows, each by its word: NOP, and MOV with its canonical length, register A and immediate 1. -/
theorem test_table_words : decodeTableWord 8 0x00 = some (.nop 0 []) ∧
    decodeTableWord 32 0x01000201 = some (.mov 2 [0x00, 0x01]) ∧
    decodeTableWord 40 0x0134120302 = some (.ldm 3 [0x12, 0x34, 0x01]) ∧
    decodeTableWord 8 0x05 = none := by decide
/-- A table word that gives the opcode byte alone has length byte 0. -/
theorem test_table_opcode_byte_only : decodeTableWord 8 0x03 = some (.stm 0 []) := by decide

/-- V-DEC-11, V-DEC-12, V-DEC-13, V-DEC-14. -/
theorem test_decode_at_the_end :
    decodeAt (mem 16380 [0x01, 0x02, 0x00, 0x01] 0 []) 16380 = .ok (.instr (.mov 2 [0x00, 0x01]) []) ∧
    decodeAt (mem 16381 [0x01, 0x02, 0x00] 0 []) 16381 = .error .outOfBounds ∧
    decodeAt (mem 16382 [0x01, 0x00] 0 []) 16382 = .ok (.instr (.mov 0 []) []) ∧
    decodeAt (mem 16382 [0x01, 0x01] 0 []) 16382 = .error .outOfBounds := by decide
/-- V-DEC-15, V-DEC-16, V-DEC-17, V-DEC-18, V-DEC-19. -/
theorem test_decode_at_the_edge :
    decodeAt (mem 16383 [0x00] 0 []) 16383 = .ok .endOfStream ∧
    decodeAt (mem 16383 [0x07] 0 []) 16383 = .error .invalidOpcode ∧
    decodeAt (mem 16383 [0x01] 0 []) 16383 = .error (.abort .edgeAccess) ∧
    decodeAt State.reset.mem 16384 = .error (.abort .edgeAccess) ∧
    decodeAt State.reset.mem 16385 = .error .outOfBounds := by decide

/-! ## One instruction, one step -/

/-- V-NOP-1: the first step after reset halts, PC unchanged. -/
theorem test_nop_halts : (nextOf (step State.reset)).map (fun t => (t.run, t.pc)) = some (.halted, 0) := by decide
/-- V-NOP-6: the executor port, with operand bytes. -/
theorem test_nop_executed : (nextOf (exec (.nop 3 [1, 2, 3]) (at' 0x20 State.reset.mem))).map State.pc = some 0x25 := by
  decide

/-- V-MOV-2. -/
theorem test_mov : regPc Reg.A (step (at' 0 (mem 0 [0x01, 0x02, 0x00, 0x12] 0 []) Reg.A 0xABCD)) = some (0x12, 4) := by
  decide
/-- V-MOV-5b: PC as the destination. -/
theorem test_mov_pc : regPc Reg.A (step (at' 0x100 (mem 0x100 [0x01, 0x02, 0x09, 0xFF] 0 []))) = some (0, 0x103) := by
  decide

/-- V-LDM-10: the first address byte is the high byte. -/
theorem test_ldm_big_endian :
    regPc Reg.A (step (at' 0 ((mem 0 [0x02, 0x03, 0x01, 0x02, 0x00] 0x102 [0x11]).setByte .data 0x201 0x22))) =
      some (0x11, 5) := by decide
/-- V-LDM-7: PC as the destination. -/
theorem test_ldm_pc : regPc Reg.A (step (at' 0x100 (mem 0x100 [0x02, 0x03, 0x00, 0x20, 0x09] 0x20 [0x30]))) =
    some (0, 0x35) := by decide

/-- V-STM-1: one byte, the low one. -/
theorem test_stm : dataPc 0x10 (step (at' 4 (mem 4 [0x03, 0x03, 0x00, 0x10, 0x00] 0 []) Reg.A 0x1234)) = some (0x34, 9) ∧
    dataPc 0x11 (step (at' 4 (mem 4 [0x03, 0x03, 0x00, 0x10, 0x00] 0 []) Reg.A 0x1234)) = some (0x00, 9) := by decide
/-- V-STM-5: PC as the source. -/
theorem test_stm_pc : dataPc 0 (step (at' 0x123 (mem 0x123 [0x03, 0x03, 0x00, 0x00, 0x09] 0 []))) = some (0x23, 0x128) := by
  decide

/-- V-ADD-3: the sum wraps. -/
theorem test_add_wraps : regPc Reg.A (step (at' 0 (mem 0 [0x04, 0x03, 0x00, 0x00, 0x00] 0 [0xFF]) Reg.A 0xFFFF)) =
    some (0xFE, 5) := by decide
/-- V-ADD-9: PC as the destination, wrapping twice. -/
theorem test_add_pc : (nextOf (exec (.add 3 [0x00, 0x00, 0x09]) (at' 0xFFFE (mem 0 [] 0 [0x01])))).map State.pc = some 4 := by
  decide

/-- V-ERR-1 to V-ERR-5, V-LDM-3, V-STM-4. -/
theorem test_error_priority :
    faultOf (step (at' 0 (mem 0 [0x07, 0xFF] 0 []))) = some .invalidOpcode ∧
    faultOf (step (at' 0 (mem 0 [0x02, 0x03, 0xFF, 0xFF, 0x0B] 0 []))) = some .invalidRegister ∧
    faultOf (step (at' 0 (mem 0 [0x02, 0x03, 0x20, 0x00, 0x0B] 0 []))) = some .invalidRegister ∧
    faultOf (step (at' 0 (mem 0 [0x02, 0x02, 0xFF, 0xFF] 0 []))) = some (.abort .shortOperands) ∧
    faultOf (step (at' 0 (mem 0 [0x01, 0x02, 0x0A, 0x01] 0 []))) = some .invalidRegister ∧
    faultOf (step (at' 0 (mem 0 [0x02, 0x03, 0x20, 0x00, 0x00] 0 []))) = some (.abort .edgeAccess) ∧
    faultOf (step (at' 0 (mem 0 [0x03, 0x03, 0x20, 0x01, 0x00] 0 []))) = some .outOfBounds := by decide
/-- V-MOV-9: a long length byte. -/
theorem test_long_length : regPc Reg.B (step (at' 0x10 (mem 0x10 [0x01, 0x03, 0x01, 0x2A, 0x99] 0 []))) =
    some (0x2A, 0x15) := by decide

/-- A table word is what the next step runs, from reset. -/
theorem test_withFetchWord : regPc Reg.A (step (State.reset.withFetchWord 32 0x2A000201)) = some (0x2A, 4) := by decide
/-- A table word that gives the opcode byte alone has length byte 0, and aborts (30_encoding.md R98). -/
theorem test_withFetchWord_opcode_only :
    faultOf (step (State.reset.withFetchWord 8 0x01)) = some (.abort .shortOperands) := by decide

/-! ## Runs and ports -/

/-- 95_test_vectors.md P1 (the source's end-to-end scenario): A = 1, PC = 4, halted. -/
theorem test_run_scenario :
    runSequential 2 (at' 0 (mem 0 [0x01, 0x02, 0x00, 0x01] 0 [])) =
      .halted ((at' 4 (mem 0 [0x01, 0x02, 0x00, 0x01] 0 []) Reg.A 1).withRun .halted) := by decide
/-- V-MEM-1, V-MEM-2, V-MEM-3, V-MEM-8, V-MEM-15, V-MEM-18. -/
theorem test_memory_edges :
    State.reset.mem.read .data 8191 = .ok 0 ∧ State.reset.mem.read .data 8192 = .error (.abort .edgeAccess) ∧
    State.reset.mem.read .data 8193 = .error .outOfBounds ∧ State.reset.mem.readCodeSlice 16384 0 = .ok [] ∧
    State.reset.mem.readCodeSlice 16384 1 = .error .outOfBounds ∧
    State.reset.mem.loadCode 16384 [1] = .error (.abort .loadOverrun) ∧
    State.reset.mem.readUnified 65535 = .ok 0 ∧ State.reset.mem.readUnified 65536 = .error .outOfBounds := by decide
/-- V-MEM-17: unified address 16384 is `data[0]`, 24576 is `stack[0]`. -/
theorem test_unified : (mem 0 [] 0 [0x55]).readUnified 16384 = .ok 0x55 ∧
    ((mem 0 [] 0 []).setByte .stack 0 0x66).readUnified 24576 = .ok 0x66 := by decide
/-- A byte written back to zero is no longer listed (log 34). -/
theorem test_canonical : ((mem 0 [] 3 [7]).setByte .data 3 0) = State.reset.mem := by decide
/-- V-REG-4, V-REG-6: the convenience ports do not wrap. -/
theorem test_increment : faultOf ((Port.increment Reg.A 1).call (at' 0 State.reset.mem Reg.A 0xFFFF)) =
      some (.abort .arithmeticOverflow) ∧
    (nextOf ((Port.increment Reg.A 1).call (at' 0 State.reset.mem Reg.A 0xFFFE))).map (fun x => x.1.readReg Reg.A) =
      some 0xFFFF ∧
    faultOf ((Port.decrement Reg.A 1).call (at' 0 State.reset.mem)) = some (.abort .arithmeticOverflow) := by decide
/-- R178, R184: an abort leaves nothing to use, and neither does another task's error after one; an error leaves a machine
between runs. -/
theorem test_after_fault : movAtEnd.afterFault (.abort .edgeAccess) = none ∧
    (movAtEnd.withRun (.concurrent [.failed .outOfBounds, .failed .internalFault])).afterFault .outOfBounds = none ∧
    ((movAtEnd.withRun (.concurrent [.failed .outOfBounds, .returned])).afterFault .outOfBounds).map State.run =
      some .idle := by decide
/-- V-CON-1: with fewer than ten instructions nothing runs. -/
theorem test_concurrent_few : (nextOf (step ((at' 0 State.reset.mem).withRun (.scanning 0 9)))).map State.run =
    some (.concurrent []) := by decide
/-- V-CON-3: twenty instructions give two tasks of ten iterations. -/
theorem test_concurrent_twenty : (nextOf (step ((at' 0 State.reset.mem).withRun (.scanning 0 20)))).map State.run =
    some (.concurrent [.live 10 .fetchPc, .live 10 .fetchPc]) := by decide

/-! ## Witnesses: for each statement with hypotheses, values that meet them, at the boundaries of its clauses -/

theorem witness_OpcodeBytesDecode : ({ OPC_NOP := 0x04, OPC_ADD := 0x00 } : Config).WellFormed := by decide
theorem witness_RegisterBytesDecode : (9 : Byte).toNat ≤ 9 ∧ 10 ≤ (0x0A : Byte).toNat := by decide
theorem witness_DecodeInvertsEncode : (Instr.nop 1 [7]).WellFormed ∧ (Instr.add 3 [0x1F, 0xFF, 0x09]).WellFormed ∧
    decode [0x01, 0x02, 0x00, 0x01, 0xEE] = .ok (.instr (.mov 2 [0x00, 0x01]) [0xEE]) := by decide
theorem witness_LoadedBytesDecodeBack : [(0x00 : Byte), 0x01].length = (2 : Byte).toNat ∧
    16380 + 2 + (2 : Byte).toNat ≤ 16384 := by decide
theorem witness_TerminatorEndsStream : 16383 < 16384 ∧ State.reset.mem.byte .code 16383 = 0x00 := by decide
theorem witness_DecodeOutcomes_illegal : 16383 < 16384 ∧ opDecode hw ((mem 16383 [0x05] 0 []).byte .code 16383) = none := by
  decide
theorem witness_DecodeOutcomes_last : Opcode.mov ≠ .nop ∧ (mem 16383 [0x01] 0 []).byte .code 16383 = opByte hw .mov := by
  decide
theorem witness_DecodeOutcomes_fits : movAtEnd.mem.byte .code 16380 = opByte hw .mov ∧ 16380 < 16383 ∧
    16380 + 2 + (movAtEnd.mem.byte .code (16380 + 1)).toNat ≤ 16384 := by decide
theorem witness_DecodeOutcomes_overrun : (mem 16381 [0x01, 0x02] 0 []).byte .code 16381 = opByte hw .mov ∧ 16381 < 16383 ∧
    16384 < 16381 + 2 + ((mem 16381 [0x01, 0x02] 0 []).byte .code (16381 + 1)).toNat := by decide
theorem witness_DecodeOutcomes_code : movAtEnd.mem.code = (mem 16380 [0x01, 0x02, 0x00, 0x01] 0 []).code ∧
    movAtEnd.mem ≠ mem 16380 [0x01, 0x02, 0x00, 0x01] 0 [] := by decide
/-- Also of ByteWriteThenRead. -/
theorem witness_SingleByteBoundary : 8191 < Segment.data.cap ∧ 8192 = Segment.data.cap ∧ Segment.data.cap < 8193 ∧
    40959 < Segment.stack.cap ∧ 40960 = Segment.stack.cap ∧ Segment.stack.cap < 40961 := by decide
/-- Also of CodeSliceRead, DataSliceWrite and CodeLoad: a slice that ends at the capacity, one byte more, and an empty
slice above the capacity. -/
theorem witness_SliceBoundary : 16380 + 4 ≤ 16384 ∧ 16384 < 16380 + 5 ∧ 16385 > 16384 ∧
    8190 + [(1 : Byte), 2].length ≤ 8192 ∧ 8192 < 8191 + [(1 : Byte), 2].length ∧
    16383 + [(1 : Byte), 2].length > 16384 := by decide
theorem witness_CodeLoad_size (b : Byte) : (List.replicate 16385 b).length > 16384 := by
  rw [List.length_replicate]; decide
theorem witness_UnifiedRead : 16383 < 16384 ∧ 16384 ≤ 24575 ∧ 24575 < 24576 ∧ 24576 ≤ 65535 ∧ 65535 < 65536 := by decide
theorem witness_CanonicalMemoryIsUnique : movAtEnd.mem.wf ∧ ((mem 0 [] 3 [7]).setByte .data 3 0).wf ∧
    ∀ g a, ((mem 0 [] 3 [7]).setByte .data 3 0).read g a = State.reset.mem.read g a :=
  ⟨by decide, by decide, fun _ _ => by rw [test_canonical]⟩
theorem witness_RegisterReadWritePorts : (at' 0 State.reset.mem).run.busy = false ∧ Reg.B ≠ Reg.A := by decide
theorem witness_IncrementPort : (at' 0 State.reset.mem Reg.A 0xFFFF).run.busy = false ∧
    ((at' 0 State.reset.mem Reg.A 0xFFFF).readReg Reg.A).toNat + (0 : Word).toNat ≤ 65535 ∧
    65535 < ((at' 0 State.reset.mem Reg.A 0xFFFF).readReg Reg.A).toNat + (1 : Word).toNat := by decide
theorem witness_DecrementPort : (at' 0 State.reset.mem Reg.A 3).run.busy = false ∧
    (3 : Word).toNat ≤ ((at' 0 State.reset.mem Reg.A 3).readReg Reg.A).toNat ∧
    ((at' 0 State.reset.mem Reg.A 3).readReg Reg.A).toNat < (4 : Word).toNat := by decide
/-- Also of NopExecutes (what a decode answers). -/
theorem witness_ResetIsAllZero : decodeAt (mem 0 [0x01, 0x02, 0x00, 0x01] 0 []) 0 = .ok (.instr (.mov 2 [0x00, 0x01]) []) ∧
    regPc Reg.A (exec (.mov 2 [0x00, 0x01]) (State.reset.withMem (mem 0 [0x01, 0x02, 0x00, 0x01] 0 []))) = some (1, 4) ∧
    decodeAt (mem 0 [0x05] 0 []) 0 = .error .invalidOpcode := by decide
theorem witness_MovExecutes : 2 ≤ (2 : Byte).toNat ∧ (9 : Byte).toNat = Reg.PC.val ∧ (8 : Byte).toNat = Reg.SP.val ∧
    10 ≤ (0x0A : Byte).toNat ∧ (1 : Byte).toNat < 2 := by decide
/-- The addresses on both sides of the data segment's end. Also of StmExecutes, AddExecutes, ControlTransferThroughPc. -/
theorem witness_LdmExecutes : 3 ≤ (3 : Byte).toNat ∧ (9 : Byte).toNat = Reg.PC.val ∧ (0 : Byte).toNat = Reg.A.val ∧
    (joinBytes 0x1F 0xFF).toNat < 8192 ∧ (joinBytes 0x20 0x00).toNat = 8192 ∧ 8192 < (joinBytes 0x20 0x01).toNat ∧
    10 ≤ (0x0A : Byte).toNat ∧ (2 : Byte).toNat < 3 ∧ (0x1FFF : Word).toNat < 8192 := by decide
theorem witness_NonCanonicalLength : (1 : Byte).toNat < Opcode.mov.need ∧ Opcode.mov.need ≤ (3 : Byte).toNat ∧
    [(0x01 : Byte), 0x2A, 0x99].length = (3 : Byte).toNat ∧
    regPc Reg.B (exec (.mov 2 [0x01, 0x2A]) State.reset) = some (0x2A, 4) ∧
    faultOf (exec (.mov 2 [0x0A, 0x2A]) State.reset) = some .invalidRegister := by decide
theorem witness_OnlyDestinationChanges : regPc Reg.A (exec (.ldm 3 [0x1F, 0xFF, 0x00]) movAtEnd) = some (0x7F, 16385) ∧
    Reg.B ≠ Reg.PC ∧ destination (.ldm 3 [0x1F, 0xFF, 0x00]) ≠ some (regByte hw Reg.B) ∧
    (Instr.ldm 3 [0x1F, 0xFF, 0x00]).opcode ≠ .stm := by decide
theorem witness_PcAdvancesByLength : destination (.stm 3 [0x1F, 0xFF, 0x09]) ≠ some (regByte hw Reg.PC) ∧
    (0x09 : Byte) = regByte hw Reg.PC ∧
    (nextOf (exec (.ldm 3 [0x1F, 0xFF, 0x09]) movAtEnd)).map State.pc = some 0x84 ∧
    movAtEnd.mem.read .data (joinBytes 0x1F 0xFF).toNat = .ok 0x7F := by decide
theorem witness_StoreThenLoad : (0x1FFF : Word).toNat < 8192 ∧ Reg.SP ≠ Reg.PC := by decide
theorem witness_SequentialErrorKinds : faultOf (sequentialTurn (at' 16385 State.reset.mem)) = some .outOfBounds ∧
    faultOf (sequentialTurn (at' 16384 State.reset.mem)) = some (.abort .edgeAccess) := by decide
theorem witness_StepRunsTheDecodedInstruction : movAtEnd.run.takesTurn = true ∧ (Instr.mov 2 [0x00, 0x01]).WellFormed ∧
    (Instr.mov 2 [0x00, 0x01]).opcode ≠ .nop ∧
    movAtEnd.pc.toNat + (encode (.mov 2 [0x00, 0x01])).length ≤ 16384 ∧
    encode (.mov 2 [0x00, 0x01]) = movAtEnd.mem.bytes .code movAtEnd.pc.toNat 4 := by decide
/-- Also of HaltedMachineIsSafe. -/
theorem witness_NopHaltsTheRun : (at' 16383 State.reset.mem).run.takesTurn = true ∧
    (at' 16383 State.reset.mem).pc.toNat < 16384 ∧
    (at' 16383 State.reset.mem).mem.byte .code (at' 16383 State.reset.mem).pc.toNat = 0x00 ∧
    (at' 16384 State.reset.mem).pc.toNat = 16384 ∧ 16384 < (at' 16385 State.reset.mem).pc.toNat := by decide
theorem witness_StepReportsDecodeErrors : (at' 0 (mem 0 [0x05] 0 [])).run.takesTurn = true ∧
    decodeAt (mem 0 [0x05] 0 []) 0 = .error .invalidOpcode := by decide
/-- Also of RunEndIgnoresMoreFuel. -/
theorem witness_HaltedRunStopsAtNop : (at' 0 (mem 0 [0x01, 0x02, 0x00, 0x01] 0 [])).run.takesTurn = true ∧
    ∃ t, runSequential 2 (at' 0 (mem 0 [0x01, 0x02, 0x00, 0x01] 0 [])) = .halted t := ⟨by decide, _, test_run_scenario⟩
/-- V-ERR-6: A = 7 stands, the run has failed. -/
theorem witness_FailedRunIsPrecise : movThenBadLdm.run.takesTurn = true ∧
    runSequential 2 movThenBadLdm =
      .failed .outOfBounds ((movThenBadLdm.writeReg Reg.A 7).writeReg Reg.PC 4) := by decide
/-- Also of PortsKeepInvariant, StepsNeverWriteCodeOrStack and StackIsNeverRead. -/
theorem witness_StepKeepsInvariant_wf : movAtEnd.wf ∧ oneTask.wf :=
  ⟨⟨by decide, trivial⟩, by decide, by simp [oneTask, Run.wf, Task.wf]⟩
theorem witness_StepKeepsInvariant : regPc Reg.A (step movAtEnd) = some (1, 16384) ∧
    (nextOf (step oneTask)).map State.run = some (.concurrent [.live 1 (.decode 16380)]) ∧
    faultOf (step (at' 16384 State.reset.mem)) = some (.abort .edgeAccess) ∧
    (nextOf ((Port.writeStack 40959 1).call movAtEnd)).map (fun x => x.1.mem.byte .stack 40959) = some 1 := by decide
theorem witness_DrivenStackStaysZero : DriverReachable (State.reset.withRun .halted) ∧
    DriverReachable (State.reset.withRun .sequential) :=
  ⟨.step .construct rfl, .call (p := .runSequential) (a := .unit) .construct rfl rfl⟩
theorem witness_PortsRefusedDuringRun : oneTask.run.busy = true ∧ movAtEnd.run.busy = false ∧
    decodeAt movAtEnd.mem 16380 = .ok (.instr (.mov 2 [0x00, 0x01]) []) ∧
    decodeAt movAtEnd.mem 16384 = .error (.abort .edgeAccess) ∧
    regPc Reg.A (exec (.mov 2 [0x00, 0x01]) movAtEnd) = some (1, 16384) ∧
    faultOf (exec (.mov 1 [0x00]) movAtEnd) = some (.abort .shortOperands) := by decide
/-- Also of DispatchCount and ScanEnds. -/
theorem witness_ScanTurns : (movAtEnd.withRun (.scanning 16383 9)).run = .scanning 16383 9 ∧ 16383 < 16384 ∧
    (mem 16382 [0x03, 0xFF] 0 []).byte .code 16382 = opByte hw .stm ∧ 16382 < 16383 ∧
    (mem 16383 [0x03] 0 []).byte .code 16383 = opByte hw .stm ∧ State.reset.mem.byte .code 16383 = 0x00 ∧
    opDecode hw ((mem 16383 [0x05] 0 []).byte .code 16383) = none := by decide
theorem witness_AtomicActions : 2 ≤ (2 : Byte).toNat ∧ 3 ≤ (3 : Byte).toNat ∧ (9 : Byte).toNat = Reg.PC.val ∧
    decodeAt movAtEnd.mem (0 : Word).toNat = .ok .endOfStream ∧
    decodeAt movAtEnd.mem (16380 : Word).toNat = .ok (.instr (.mov 2 [0x00, 0x01]) []) ∧
    nextOf (firstAction (.mov 2 [0x00, 0x01])) = some (.writeReg Reg.A 1 2) ∧
    (0x1FFF : Word).toNat < 8192 ∧ 1 < 2 := by decide
/-- One unfinished task is the one chosen, whatever the free value. -/
theorem witness_OneWritePerAtomicAction : oneTask.run = .concurrent [.live 1 .fetchPc] ∧
    choose (Config.taskPick oneTask.draws) (liveTasks 0 [.live 1 .fetchPc]) = some (0, 1, .fetchPc) := ⟨rfl, rfl⟩
theorem witness_FailureStopsOnlyItsTask :
    ∃ x ∈ [Task.failed .outOfBounds, .returned, .live 10 .fetchPc], ¬x.finished := ⟨.live 10 .fetchPc, by decide, by decide⟩
theorem witness_JoinReportsSomeFailure : (∀ x ∈ [Task.returned, .failed .outOfBounds, .failed .internalFault], x.finished) ∧
    (∃ e, Task.failed e ∈ [Task.returned, .failed .outOfBounds, .failed .internalFault]) ∧
    ∀ e, Task.failed e ∉ [Task.returned] := ⟨by simp [Task.finished], ⟨.outOfBounds, by decide⟩, by simp⟩
theorem witness_AbortedTaskIsInternalFault : decodeAt State.reset.mem (16384 : Word).toNat = .error (.abort .edgeAccess) ∧
    decodeAt (mem 0 [0x02, 0x02, 0xFF, 0xFF] 0 []) (0 : Word).toNat = .ok (.instr (.ldm 2 [0xFF, 0xFF]) []) ∧
    (Instr.ldm 2 [0xFF, 0xFF]).len.toNat < (Instr.ldm 2 [0xFF, 0xFF]).opcode.need ∧
    decodeAt State.reset.mem (16385 : Word).toNat = .error .outOfBounds ∧
    decodeAt (mem 16383 [0x05] 0 []) (16383 : Word).toNat = .error .invalidOpcode ∧
    decodeAt (mem 0 [0x01, 0x02, 0x0A, 0x01] 0 []) (0 : Word).toNat = .ok (.instr (.mov 2 [0x0A, 0x01]) []) ∧
    decodeAt (mem 0 [0x03, 0x03, 0x00, 0x00, 0x0A] 0 []) (0 : Word).toNat = .ok (.instr (.stm 3 [0x00, 0x00, 0x0A]) []) ∧
    10 ≤ (0x0A : Byte).toNat ∧ (8192 : Word).toNat = 8192 ∧ 8192 < (8193 : Word).toNat := by decide
theorem witness_PoisonNeedsAnAbort :
    (nextOf (step (movAtEnd.withRun (.concurrent [.failed .lockPoisoned, .live 10 .fetchPc])))).map State.run =
      some (.concurrent [.failed .lockPoisoned, .live 10 (.decode 16380)]) := by decide
theorem witness_ConcurrentRunReturns : oneTask.run = .concurrent [.live 1 .fetchPc] ∧
    ∀ x ∈ [Task.live 1 .fetchPc, .live 10 (.advanceWrite 0)], x.wf := ⟨rfl, by simp [Task.wf]⟩
theorem witness_SingleTaskRunsSequentially : 1 ≤ 2 ∧ (movAtEnd.withRun .sequential).run = .sequential ∧
    ∃ t : State, Sys2Proof.core.run 1 (movAtEnd.withRun .sequential) = .next t ∧ t.run = .sequential ∧ 1 < 2 ∧
      step t = .fault (.abort .edgeAccess) :=
  ⟨by decide, rfl, _, rfl, rfl, by decide, rfl⟩
/-- The scenario of the source: one step, and the next one halts. -/
theorem witness_SingleTaskRunsSequentially_halts : ∃ t h : State,
    Sys2Proof.core.run 1 ((at' 0 (mem 0 [0x01, 0x02, 0x00, 0x01] 0 [])).withRun .sequential) = .next t ∧
      t.run = .sequential ∧ 1 < 10 ∧ step t = .next h ∧ h.run = .halted := ⟨_, _, rfl, rfl, by decide, rfl, rfl⟩
theorem witness_AbortLeavesNoMachine : (at' 16384 State.reset.mem).run.takesTurn = true ∧
    runSequential 1 (at' 16384 State.reset.mem) = .aborted .edgeAccess ∧
    (movAtEnd.withRun (.concurrent [.failed .internalFault, .returned])).run =
      .concurrent [.failed .internalFault, .returned] ∧
    Task.failed .internalFault ∈ [Task.failed .internalFault, .returned] ∧
    (∀ reason, Fault.outOfBounds ≠ .abort reason) ∧ Task.failed .internalFault ∉ [Task.failed .outOfBounds] :=
  ⟨by decide, by decide, rfl, by decide, by simp, by decide⟩
/-- The boundary values are those of witness_SingleByteBoundary, witness_SliceBoundary and witness_UnifiedRead. -/
theorem witness_HostMemoryPorts : movAtEnd.run.busy = false ∧ [(1 : Byte), 2].length ≤ 16384 := by decide

end Sys2Proof.Tests
end

section
/-! The host's ports between runs (10_state.md R10, R11), and the register ports that read and write (R24, R25). -/

namespace Sys2Proof.Machine

/-- Between runs a port is not refused: the call is the port's own effect (R11). -/
theorem call_of_not_busy {s : State} (h : s.run.busy = false) (p : Port) : p.call s = p.effect s := by
  simp [Port.call, h]

@[simp] theorem effect_read (s : State) (r : Reg) : (Port.read r).effect s = .next (s, .word (s.readReg r)) := rfl
@[simp] theorem effect_write (s : State) (r : Reg) (v : Word) :
    (Port.write r v).effect s = .next (s.writeReg r v, .unit) := rfl

/-- Settles O16. The state after a write is `s.writeReg r v`, and the laws of `writeReg` give its slots and its frame; a
read answers the state it was called in. -/
theorem registerReadWritePorts : Obligations.RegisterReadWritePorts := by
  intro s r v idle
  rw [call_of_not_busy idle, call_of_not_busy idle]
  refine ⟨⟨s.writeReg r v, effect_write s r v, readReg_writeReg_same s r v, ?others, ?memory, ?run, ?draws⟩,
    effect_read s r⟩
  case others => exact fun q hq => readReg_writeReg_ne s r q v hq
  case memory => exact fun g a => by rw [writeReg_mem]
  case run => exact writeReg_run s r v
  case draws => exact writeReg_draws s r v

end Sys2Proof.Machine
end

section
/-! The opcode byte (30_encoding.md R97), and instructions loaded into the code segment (R105). -/

namespace Sys2Proof

variable {c : Config} {b : Byte} {op : Opcode}

/-- A tag comes only from its own opcode byte, in every parameter record. -/
theorem eq_opByte_of_opDecode (h : opDecode c b = some op) : b = opByte c op := by
  unfold opDecode at h
  split_ifs at h with nop mov ldm stm add
  · cases h; exact nop
  · cases h; exact mov
  · cases h; exact ldm
  · cases h; exact stm
  · cases h; exact add

/-- The illegal bytes are those of no tag, in every parameter record. -/
theorem opDecode_eq_none_iff : opDecode c b = none ↔ ∀ op, b ≠ opByte c op := by
  constructor
  · intro h op
    unfold opDecode at h
    split_ifs at h with nop mov ldm stm add
    cases op with
    | nop => exact nop
    | mov => exact mov
    | ldm => exact ldm
    | stm => exact stm
    | add => exact add
  · intro h
    cases ho : opDecode c b with
    | none => rfl
    | some op => exact absurd (eq_opByte_of_opDecode ho) (h op)

/-- Distinct opcode bytes (D2): no two tags share one. -/
theorem opByte_injective (h : c.WellFormed) : Function.Injective (opByte c) := by
  obtain ⟨-, -, distinct, -⟩ := h
  change ([.nop, .mov, .ldm, .stm, .add].map (opByte c)).Nodup at distinct
  have listed (op : Opcode) : op ∈ [Opcode.nop, .mov, .ldm, .stm, .add] := by cases op <;> decide
  exact fun op op' same => List.inj_on_of_nodup_map distinct (listed op) (listed op') same

/-- Settles O1. The byte of a tag decodes to some tag by `opDecode_eq_none_iff`, and to no other one because the opcode
bytes are distinct. -/
theorem opcodeBytesDecode : Obligations.OpcodeBytesDecode := by
  intro c wf
  refine ⟨fun op => ?_, fun b => opDecode_eq_none_iff⟩
  cases ho : opDecode c (opByte c op) with
  | none => exact absurd rfl (opDecode_eq_none_iff.mp ho op)
  | some op' => rw [opByte_injective wf (eq_opByte_of_opDecode ho)]

end Sys2Proof

namespace Sys2Proof.Machine

/-- A block of stored bytes reads back as it is. -/
theorem bytes_setBytes_same (m : Memory) (g : Segment) (a : Nat) (bs : List Byte) :
    (m.setBytes g a bs).bytes g a bs.length = bs := by
  induction bs generalizing m a with
  | nil => rfl
  | cons b t ih =>
    have first : ((m.setByte g a b).setBytes g (a + 1) t).byte g a = b := by
      simp [byte_setBytes, byte_setByte]
    simp only [Memory.setBytes, List.length_cons, Memory.bytes, first, ih]

/-- An instruction whose bytes stand at a code address decodes there to its three fields; a NOP's opcode byte ends the
stream before its length byte is read. -/
theorem decodeAt_of_bytes {m : Memory} {a : Nat} {op : Opcode} {L : Byte} {ops : List Byte}
    (len : ops.length = L.toNat) (fits : a + 2 + L.toNat ≤ 16384)
    (stands : m.bytes .code a (ops.length + 2) = opByte hw op :: L :: ops) :
    decodeAt m a = .ok (if op = .nop then .endOfStream else .instr (op.instr L ops) []) := by
  simp only [Memory.bytes, List.cons.injEq] at stands
  obtain ⟨opcode, length, payload⟩ := stands
  have tag : opDecode hw (m.byte .code a) = some op := by rw [opcode, opDecode_opByte]
  by_cases hn : op = .nop
  · subst hn
    exact decodeAt_nop m a (by omega) tag
  · rw [if_neg hn, decodeAt_instr m a hn tag (by rwa [length]), length, ← len, payload]

/-- Settles O5. The load fits, so it stores the bytes, which then stand at their address. -/
theorem loadedBytesDecodeBack : Obligations.LoadedBytesDecodeBack := by
  intro m a op L ops len fits
  have size : (opByte hw op :: L :: ops).length = 2 + L.toNat := by simp only [List.length_cons]; omega
  exact ⟨m.setBytes .code a (opByte hw op :: L :: ops),
    (loadCode_ok_iff m a).mpr ⟨by omega, rfl, size⟩,
    decodeAt_of_bytes len fits (bytes_setBytes_same m .code a (opByte hw op :: L :: ops))⟩

end Sys2Proof.Machine
end

section
/-! The NOP byte ends the stream (40_fetch_decode_advance.md R122). -/

namespace Sys2Proof.Machine

/-- The byte the obligation spells out is the NOP tag of the hardware's parameters (R106). -/
theorem opDecode_hw_zero : opDecode hw 0x00 = some .nop := opDecode_opByte .nop

/-- Settles O6. The decoder over the code segment and the one over bytes both stop at the NOP tag, which 0x00 is. -/
theorem terminatorEndsStream : Obligations.TerminatorEndsStream := by
  constructor
  · intro m pc inside zero
    have tag : opDecode hw (m.byte .code pc) = some .nop := by rw [zero, opDecode_hw_zero]
    exact decodeAt_nop m pc inside tag
  · exact decode_nop opDecode_hw_zero

end Sys2Proof.Machine
end

section
/-! NOP at the executor (41_nop.md R141), which no decode reaches (R140). -/

namespace Sys2Proof.Machine

/-- All NOP can do at the dispatch: advance PC by its header and payload (R141). -/
theorem exec_nop_eq (L : Byte) (ops : List Byte) (s : State) : exec (.nop L ops) s = .next (s.advance L) :=
  execNop_eq L ops s

/-- The decoder yields an Instruction value only for a tag it reads on from, and NOP's is not one (R122, R140). -/
theorem opcode_ne_nop_of_decodeAt {m : Memory} {pc : Nat} {i : Instr} {rest : List Byte}
    (decoded : decodeAt m pc = .ok (.instr i rest)) : i.opcode ≠ .nop := by
  rcases decodeAt_ok_cases m pc decoded with ⟨stream, -, -⟩ | ⟨op, reads, -, -, value⟩
  · cases stream
  · cases value
    rwa [instr_opcode]

/-- Settles O22. The state after NOP is `s.advance L`, and the laws of `advance` give its PC and its frame. -/
theorem nopExecutes : Obligations.NopExecutes := by
  constructor
  · intro L ops s
    refine ⟨s.advance L, exec_nop_eq L ops s, ?pc, ?others, ?memory, ?run, ?draws⟩
    case pc => rw [advance_pc, pcAfter_toNat]
    case others => exact fun q hq => advance_readReg_ne s q L hq
    case memory => exact fun g a => by rw [advance_mem]
    case run => exact advance_run s L
    case draws => exact advance_draws s L
  · exact fun m pc i rest decoded => opcode_ne_nop_of_decodeAt decoded

end Sys2Proof.Machine
end

section
/-! The dispatch of the concurrent run mode (60_exceptions.md R193): how many tasks start, and the run that starts none. -/

namespace Sys2Proof.Machine

@[simp] theorem length_dispatchTasks (n : Nat) : (dispatchTasks n).length = n / 10 := List.length_replicate

/-- Every dispatched task stands before its first action, with a whole chunk to run (R194). -/
theorem eq_fresh_of_mem_dispatchTasks {n : Nat} {x : Task} (h : x ∈ dispatchTasks n) : x = .live 10 .fetchPc :=
  List.eq_of_mem_replicate h

theorem dispatchTasks_of_lt {n : Nat} (h : n < 10) : dispatchTasks n = [] := by
  rw [← List.length_eq_zero_iff, length_dispatchTasks, Nat.div_eq_of_lt h]

/-- At a terminator the scan ends, and its next state is the start of the dispatch phase (R192, R193). -/
theorem scanTurn_of_terminator {s : State} {c : Nat} (n : Nat) (inside : c < 16384)
    (tag : opDecode hw (s.mem.byte .code c) = some .nop) :
    scanTurn c n s = .next (s.withRun (.concurrent (dispatchTasks n))) := by
  simp [scanTurn, read_of_lt s.mem .code c inside, tag]

/-- With no task unfinished the turn of the dispatch phase is the join. -/
theorem tasksTurn_of_finished {ts : List Task} (s : State) (finished : ∀ t ∈ ts, t.finished) :
    tasksTurn ts s = joinTasks ts s := by
  rcases tasksTurn_cases ts s with ⟨-, join⟩ | ⟨k, left, a, live, -⟩
  · exact join
  · exact (finished _ (List.mem_of_getElem? live)).elim

/-- With no task failed the join ends the run, and the call returns `()` (R201). -/
theorem joinTasks_of_no_failure {ts : List Task} (s : State) (succeeded : ∀ e, .failed e ∉ ts) :
    joinTasks ts s = .next (s.withRun .joined) := by
  rcases joinTasks_cases ts s with ⟨-, joined⟩ | ⟨e, failed, -⟩
  · exact joined
  · exact absurd failed (succeeded e)

/-- A dispatch of no task returns in its first turn, which is the join. -/
theorem step_concurrent_nil {s : State} (h : s.run = .concurrent []) : step s = .next (s.withRun .joined) := by
  rw [step_concurrent h, tasksTurn_of_finished s fun t ht => absurd ht List.not_mem_nil,
    joinTasks_of_no_failure s fun _ => List.not_mem_nil]

/-- Settles O49. The step at the terminator dispatches `dispatchTasks n`; with `n` below 10 that list is empty, and the
second step is the join. -/
theorem dispatchCount : Obligations.DispatchCount := by
  intro s c n scanning inside zero
  have tag : opDecode hw (s.mem.byte .code c) = some .nop := by rw [zero, opDecode_hw_zero]
  have dispatch : step s = .next (s.withRun (.concurrent (dispatchTasks n))) :=
    (step_scanning scanning).trans (scanTurn_of_terminator n inside tag)
  refine ⟨⟨_, dispatchTasks n, dispatch, withRun_run s _, length_dispatchTasks n,
    fun x => eq_fresh_of_mem_dispatchTasks⟩, fun few => ?_⟩
  rw [dispatchTasks_of_lt few] at dispatch
  calc Sys2Proof.core.run 2 s
      = Sys2Proof.core.run 1 (s.withRun (.concurrent [])) := run_succ_of_next 1 dispatch
    _ = Sys2Proof.core.run 0 ((s.withRun (.concurrent [])).withRun .joined) :=
        run_succ_of_next 0 (step_concurrent_nil (withRun_run s _))
    _ = .next (s.withRun .joined) := by rw [run_zero, withRun_withRun]

end Sys2Proof.Machine
end

section
/-! The decoder and the encoder over lists of bytes (30_encoding.md R90 to R92, R100, R103, R106). -/

namespace Sys2Proof

/-- An instruction's own bytes decode to it, whatever follows; a NOP's to end-of-stream (R106). -/
theorem decode_encode_append (i : Instr) (rest : List Byte) (wf : i.WellFormed) :
    decode (encode i ++ rest) = .ok (if i.opcode = .nop then .endOfStream else .instr i rest) := by
  have bytes : encode i ++ rest = opByte hw i.opcode :: i.len :: (i.ops ++ rest) := rfl
  have len : i.len.toNat = i.ops.length := wf.symm
  rw [bytes]
  by_cases hn : i.opcode = .nop
  · rw [if_pos hn, hn]
    exact decode_nop (opDecode_opByte .nop) _
  · rw [if_neg hn, decode_cons_cons (opDecode_opByte i.opcode) hn i.len _ (by simp [len]), len, List.take_left',
      List.drop_left', instr_eta] <;> rfl

/-- All a list of bytes that decodes to an instruction can be: a header, `L` operand bytes, and the rest. -/
theorem decode_instr_cases {bytes rest : List Byte} {i : Instr} (h : decode bytes = .ok (.instr i rest)) :
    ∃ op L t, op ≠ .nop ∧ bytes = opByte hw op :: L :: t ∧ L.toNat ≤ t.length ∧
      i = op.instr L (t.take L.toNat) ∧ rest = t.drop L.toNat := by
  match bytes with
  | [] => simp [decode] at h
  | b0 :: t =>
    cases ho : opDecode hw b0 with
    | none => rw [decode_illegal ho] at h; cases h
    | some op =>
      by_cases hn : op = .nop
      · subst hn; rw [decode_nop ho] at h; cases h
      · match t with
        | [] => cases op <;> simp_all [decode]
        | L :: t =>
          by_cases hL : L.toNat ≤ t.length
          · rw [decode_cons_cons ho hn L t hL] at h
            cases h
            exact ⟨op, L, t, hn, by rw [(opDecode_some_iff b0 op).mp ho], hL, rfl, rfl⟩
          · cases op <;> simp_all [decode]

/-- Settles O4. The two directions are `decode_encode_append` and the inversion of the decoder. -/
theorem decodeInvertsEncode : Obligations.DecodeInvertsEncode := by
  refine ⟨decode_encode_append, fun bytes rest i h => ?_⟩
  obtain ⟨op, L, t, hn, rfl, hL, rfl, rfl⟩ := decode_instr_cases h
  refine ⟨?wf, by rwa [instr_opcode], ?bytes⟩
  case wf => simp [Instr.WellFormed, hL]
  case bytes => simp [encode]

/-- Settles O3. The words are fixed, so the encoder and the decoder evaluate on them. -/
theorem specExampleBytes : Obligations.SpecExampleBytes := by
  unfold Obligations.SpecExampleBytes
  decide

end Sys2Proof

namespace Sys2Proof.Machine

/-- The decoder of register bytes finds exactly the slots of the identifier bytes 0x00 to 0x09 (R100). -/
theorem regDecode_eq_some_iff (b : Byte) (r : Reg) : regDecode hw b = some r ↔ b.toNat = r.val := by
  rw [← regOperand_ok_iff b r]
  cases h : regDecode hw b <;> simp [regOperand, h]

/-- Settles O2. A byte below 10 names the slot of its value, and any other byte no slot, which is what `regOperand`
reports as an error. -/
theorem registerBytesDecode : Obligations.RegisterBytesDecode := by
  refine ⟨fun b hb => ?_, fun b hb => ⟨?_, regOperand_error b hb⟩, by decide⟩
  · exact ⟨⟨b.toNat, Nat.lt_succ_of_le hb⟩, (regDecode_eq_some_iff b _).mpr rfl, rfl⟩
  · refine Option.eq_none_iff_forall_ne_some.mpr fun r hr => ?_
    have named := (regDecode_eq_some_iff b r).mp hr
    have slot : r.val < 10 := r.isLt
    omega

end Sys2Proof.Machine
end

section
/-! The checked memory operations (20_memory.md R51 to R63), and the one canonical form of a memory (10_state.md R33).
-/

namespace Sys2Proof.Machine

variable {m m' : Memory} {g g' : Segment} {a b k : Nat} {v : Byte} {bs : List Byte}

/-! ## What a checked read depends on -/

/-- A checked read depends on the byte it reads and on nothing else. -/
theorem read_eq_of_byte_eq (h : m'.byte g a = m.byte g a) : m'.read g a = m.read g a := by
  simp only [Memory.read, h]

/-- Reading a segment depends on that segment's bytes only. -/
theorem read_eq_of_cells_eq (h : m'.cells g = m.cells g) (a : Nat) : m'.read g a = m.read g a :=
  read_eq_of_byte_eq (by simp only [Memory.byte, h])

theorem read_setByte_same (ha : a < g.cap) : (m.setByte g a v).read g a = .ok v := by
  rw [read_of_lt _ g a ha, byte_setByte, if_pos ⟨rfl, rfl⟩]

theorem read_setByte_other (h : ¬(g' = g ∧ b = a)) : (m.setByte g a v).read g' b = m.read g' b :=
  read_eq_of_byte_eq (by rw [byte_setByte, if_neg h])

theorem read_setBytes_getElem (h : bs[k]? = some v) (fits : a + bs.length ≤ g.cap) :
    (m.setBytes g a bs).read g (a + k) = .ok v := by
  obtain ⟨hk, rfl⟩ := List.getElem?_eq_some_iff.mp h
  rw [read_of_lt _ g _ (by omega), byte_setBytes, if_pos ⟨rfl, by omega, by omega⟩]
  simp [hk]

theorem read_setBytes_other (h : ¬(g' = g ∧ a ≤ b ∧ b < a + bs.length)) :
    (m.setBytes g a bs).read g' b = m.read g' b :=
  read_eq_of_byte_eq (by rw [byte_setBytes, if_neg h])

/-! ## The slices and the load where they fail -/

theorem writeDataSlice_above (m : Memory) (h : 8192 < a + bs.length) :
    m.writeDataSlice bs a = .error .outOfBounds := by
  have refused : checkSlice .data a bs.length = .error .outOfBounds := if_pos (.inr h)
  simp [Memory.writeDataSlice, refused]

theorem loadCode_oversize (m : Memory) (a : Nat) (h : 16384 < bs.length) :
    m.loadCode a bs = .error .capacityExceeded := if_pos h

theorem loadCode_overrun (m : Memory) (size : bs.length ≤ 16384) (h : 16384 < a + bs.length) :
    m.loadCode a bs = .error (.abort .loadOverrun) := by
  have fits : ¬bs.length > hw.CAP_CODE := by simpa using size
  rw [Memory.loadCode, if_neg fits, if_pos h]

/-! ## The statements -/

/-- Settles O8. The three cases are those of the single-byte check. -/
theorem singleByteBoundary : Obligations.SingleByteBoundary := by
  refine ⟨cap_code, cap_data, cap_stack, fun m g a v => ⟨fun below => ?_, ?_, fun above => ?_⟩⟩
  · exact ⟨read_of_lt m g a below, _, write_of_lt m g a v below⟩
  · rintro rfl
    exact ⟨read_edge m g, write_edge m g v⟩
  · exact ⟨read_above m g a above, write_above m g a v above⟩

/-- Settles O9. Below the capacity a write is `setByte`, whose reads are given by `byte_setByte`. -/
theorem byteWriteThenRead : Obligations.ByteWriteThenRead := by
  refine fun m g a v => ⟨fun below => ?_, ?_, fun above => write_above m g a v above⟩
  · exact ⟨m.setByte g a v, write_of_lt m g a v below, read_setByte_same below, fun g' b => read_setByte_other⟩
  · rintro rfl
    exact write_edge m g v

/-- Settles O10. A slice operation answers exactly where its slice ends at or below the capacity. -/
theorem sliceBoundary : Obligations.SliceBoundary := fun m a n _ =>
  ⟨readCodeSlice_above m a,
   fun fits => ⟨m.bytes .code a n, (readCodeSlice_ok_iff m a).mpr ⟨fits, rfl⟩⟩,
   writeDataSlice_above m,
   fun fits => ⟨_, (writeDataSlice_ok_iff m a).mpr ⟨fits, rfl⟩⟩⟩

/-- Settles O11. The slice is `m.bytes`, whose elements `bytes_getElem?` gives one by one. -/
theorem codeSliceRead : Obligations.CodeSliceRead := by
  refine fun m a n => ⟨fun outside => readCodeSlice_above m a (by omega), fun fits => ?_⟩
  refine ⟨m.bytes .code a n, (readCodeSlice_ok_iff m a).mpr ⟨fits, rfl⟩, bytes_length m .code a n, fun k hk => ?_⟩
  have inside : a + k < Segment.code.cap := by rw [cap_code]; omega
  exact ⟨_, read_of_lt m .code (a + k) inside, bytes_getElem? m .code a n k hk⟩

/-- Settles O12. A slice that fits is stored by `setBytes`, whose reads are given by `byte_setBytes`. -/
theorem dataSliceWrite : Obligations.DataSliceWrite := by
  refine fun m a bytes => ⟨fun outside => writeDataSlice_above m (by omega), fun fits => ?_⟩
  exact ⟨m.setBytes .data a bytes, (writeDataSlice_ok_iff m a).mpr ⟨fits, rfl⟩,
    fun k b stored => read_setBytes_getElem stored fits, fun g c => read_setBytes_other⟩

/-- Settles O13. The size check comes first, then the overrun; a load that fits is stored by `setBytes`. -/
theorem codeLoad : Obligations.CodeLoad := by
  refine fun m a bytes => ⟨loadCode_oversize m a, loadCode_overrun m, fun fits => ?_⟩
  exact ⟨m.setBytes .code a bytes, (loadCode_ok_iff m a).mpr ⟨fits, rfl, rfl⟩,
    fun k b stored => read_setBytes_getElem stored fits, fun g c => read_setBytes_other⟩

/-! ## The unified address space (R63, R64) -/

theorem readUnified_eq (m : Memory) (a : Nat) : m.readUnified a =
    if a < 16384 then m.read .code a
    else if a < 24576 then m.read .data (a - 16384)
    else if a < 65536 then m.read .stack (a - 24576)
    else .error .outOfBounds := rfl

theorem readUnified_code (m : Memory) (h : a < 16384) : m.readUnified a = .ok (m.byte .code a) := by
  rw [readUnified_eq, if_pos h, read_of_lt m .code a h]

theorem readUnified_data (m : Memory) (low : 16384 ≤ a) (high : a < 24576) :
    m.readUnified a = .ok (m.byte .data (a - 16384)) := by
  have inside : a - 16384 < Segment.data.cap := by rw [cap_data]; omega
  rw [readUnified_eq, if_neg (by omega), if_pos high, read_of_lt m .data _ inside]

theorem readUnified_stack (m : Memory) (low : 24576 ≤ a) (high : a < 65536) :
    m.readUnified a = .ok (m.byte .stack (a - 24576)) := by
  have inside : a - 24576 < Segment.stack.cap := by rw [cap_stack]; omega
  rw [readUnified_eq, if_neg (by omega), if_neg (by omega), if_pos high, read_of_lt m .stack _ inside]

theorem readUnified_above (m : Memory) (h : 65536 ≤ a) : m.readUnified a = .error .outOfBounds := by
  rw [readUnified_eq, if_neg (by omega), if_neg (by omega), if_neg (by omega)]

/-- Settles O14. One lemma per range; each segment is read strictly below its capacity. -/
theorem unifiedRead : Obligations.UnifiedRead := fun m _ =>
  ⟨readUnified_code m, readUnified_data m, readUnified_stack m, readUnified_above m⟩

/-! ## The canonical form -/

/-- What a canonical segment lists: exactly the addresses that read other than 0x00, with what they read. -/
theorem mem_iff_readCells {cap : Nat} {cs : List Host.Cell} (h : canonical cap cs) (x : Host.Cell) :
    x ∈ cs ↔ x.1 < cap ∧ x.2 ≠ 0 ∧ readCells cs x.1 = x.2 := by
  obtain ⟨a, v⟩ := x
  obtain ⟨sorted, listed⟩ := h
  induction cs with
  | nil => simpa [readCells] using fun _ => Ne.symm
  | cons c t ih =>
    obtain ⟨k, w⟩ := c
    obtain ⟨first, sorted⟩ := List.pairwise_cons.mp sorted
    have ht := ih sorted fun y hy => listed y (List.mem_cons_of_mem _ hy)
    have head := listed (k, w) List.mem_cons_self
    by_cases hk : a = k
    · subst hk
      have fresh : (a, v) ∉ t := fun hv => absurd (first _ hv) (Nat.lt_irrefl a)
      simp only [List.mem_cons, fresh, or_false, Prod.mk.injEq, true_and, readCells, if_true]
      constructor
      · rintro rfl
        exact ⟨head.1, head.2, rfl⟩
      · exact fun hv => hv.2.2.symm
    · simpa [readCells, hk] using ht

/-- Two canonical segments that read alike below the capacity are the same list. -/
theorem canonical_unique {cap : Nat} {cs cs' : List Host.Cell} (h : canonical cap cs) (h' : canonical cap cs')
    (same : ∀ a, a < cap → readCells cs a = readCells cs' a) : cs = cs' := by
  have irrefl : Std.Irrefl (fun x y : Host.Cell => x.1 < y.1) := ⟨fun _ => Nat.lt_irrefl _⟩
  have antisymm : Std.Antisymm (fun x y : Host.Cell => x.1 < y.1) := ⟨fun _ _ hxy hyx => absurd hxy (Nat.lt_asymm hyx)⟩
  refine h.1.eq_of_mem_iff h'.1 fun x => ?_
  rw [mem_iff_readCells h, mem_iff_readCells h']
  exact and_congr_right fun below => by rw [same x.1 below]

/-- Settles O15. Each segment by `canonical_unique`: below the capacity the reads are the bytes. -/
theorem canonicalMemoryIsUnique : Obligations.CanonicalMemoryIsUnique := by
  intro m m' wf wf' same
  have segment (g : Segment) : m.cells g = m'.cells g := by
    refine canonical_unique (wf_cells wf g) (wf_cells wf' g) fun a below => ?_
    have read := same g a
    rw [read_of_lt m g a below, read_of_lt m' g a below] at read
    exact Except.ok.inj read
  cases m; cases m'
  rw [Memory.mk.injEq]
  exact ⟨segment .code, segment .data, segment .stack⟩

end Sys2Proof.Machine
end

section
/-! The decoder port (40_fetch_decode_advance.md R121 to R125): what it depends on, and its outcomes. -/

namespace Sys2Proof.Machine

variable {m m' : Memory}

/-- Reading bytes in a row depends on the segment's bytes only. -/
theorem bytes_eq_of_cells_eq {g : Segment} (h : m'.cells g = m.cells g) (a n : Nat) :
    m'.bytes g a n = m.bytes g a n := by
  induction n generalizing a with
  | zero => rfl
  | succ n ih => simp only [Memory.bytes, Memory.byte, h, ih]

theorem readCodeSlice_eq_of_code_eq (h : m'.code = m.code) (a n : Nat) :
    m'.readCodeSlice a n = m.readCodeSlice a n := by
  simp only [Memory.readCodeSlice, bytes_eq_of_cells_eq (g := .code) h]

/-- The decoder reads the code segment and nothing else (R125). -/
theorem decodeAt_eq_of_code_eq (h : m'.code = m.code) (pc : Nat) : decodeAt m' pc = decodeAt m pc := by
  simp only [decodeAt, fetch, read_eq_of_cells_eq (g := .code) h, readCodeSlice_eq_of_code_eq h]

/-- The errors of a decode (R121 to R124, D5, D8). -/
theorem decodeAt_error_cases {pc : Nat} {e : Fault} (h : decodeAt m pc = .error e) :
    e = .outOfBounds ∨ e = .invalidOpcode ∨ e = .abort .edgeAccess := by
  rcases Nat.lt_trichotomy pc 16384 with inside | rfl | above
  · cases tag : opDecode hw (m.byte .code pc) with
    | none => rw [decodeAt_illegal m pc inside tag] at h; cases h; exact .inr (.inl rfl)
    | some op =>
      by_cases hn : op = .nop
      · subst hn; rw [decodeAt_nop m pc inside tag] at h; cases h
      · by_cases last : pc = 16383
        · subst last; rw [decodeAt_last m hn tag] at h; cases h; exact .inr (.inr rfl)
        · by_cases fits : pc + 2 + (m.byte .code (pc + 1)).toNat ≤ 16384
          · rw [decodeAt_instr m pc hn tag fits] at h; cases h
          · rw [decodeAt_overrun m pc hn (by omega) tag (by omega)] at h; cases h; exact .inl rfl
  · rw [decodeAt_edge] at h; cases h; exact .inr (.inr rfl)
  · rw [decodeAt_above m pc above] at h; cases h; exact .inl rfl

/-- Settles O7. One law of the decoder per outcome; the operand bytes are a slice of the code segment. -/
theorem decodeOutcomes : Obligations.DecodeOutcomes := by
  refine fun m pc => ⟨decodeAt_above m pc, ?edge, decodeAt_illegal m pc, ?stream, fun op hn opcode => ?reads,
    fun m' same => decodeAt_eq_of_code_eq same pc⟩
  case edge => rintro rfl; exact decodeAt_edge m
  case stream => exact fun inside zero => decodeAt_nop m pc inside (by rw [zero, opDecode_hw_zero])
  case reads =>
    have tag : opDecode hw (m.byte .code pc) = some op := (opDecode_some_iff _ _).mpr opcode
    refine ⟨?_, fun _ fits => ?_, fun before overrun => decodeAt_overrun m pc hn before tag overrun⟩
    · rintro rfl
      exact decodeAt_last m hn tag
    · refine ⟨_, decodeAt_instr m pc hn tag fits, bytes_length m .code _ _, fun k hk => ?_⟩
      rw [bytes_length] at hk
      exact bytes_getElem? m .code (pc + 2) _ k hk

end Sys2Proof.Machine
end

section
/-! The arithmetic of the machine (44_add.md R161), the ports `increment` and `decrement` (10_state.md R26, R27), the
labels of the errors (60_exceptions.md R179), and the state after reset (10_state.md R40, R41). -/

namespace Sys2Proof.Machine

/-! ## Arithmetic as numbers -/

theorem lowByte_toNat (v : Word) : (lowByte v).toNat = v.toNat % 256 := by simp [lowByte]

theorem ofNat_add_toNat (v d : Word) : BitVec.ofNat 16 (v.toNat + d.toNat) = v + d := (BitVec.add_def v d).symm

theorem ofNat_sub_toNat (v d : Word) : BitVec.ofNat 16 (v.toNat + 65536 - d.toNat) = v - d := by
  apply BitVec.eq_of_toNat_eq
  rw [BitVec.toNat_ofNat, BitVec.toNat_sub]
  have := d.isLt
  congr 1
  omega

theorem incremented_false (v d : Word) : incremented false v d =
    if v.toNat + d.toNat ≤ 65535 then .ok (v + d) else .error (.abort .arithmeticOverflow) := by
  simp only [incremented, ofNat_add_toNat, Bool.or_false, decide_eq_true_eq]

theorem decremented_false (v d : Word) : decremented false v d =
    if d.toNat ≤ v.toNat then .ok (v - d) else .error (.abort .arithmeticOverflow) := by
  simp only [decremented, ofNat_sub_toNat, Bool.or_false, decide_eq_true_eq]

/-- Settles O19. One law per row of R161. -/
theorem arithmeticLaws : Obligations.ArithmeticLaws :=
  ⟨addByte_toNat, pcAfter_toNat, joinBytes_toNat, zext16_toNat, lowByte_toNat, incremented_false, decremented_false,
    fun g a _ => checkSlice_ok_iff g a⟩

/-! ## The increment and decrement ports -/

variable {s t : State} {r : Reg} {delta : Word}

@[simp] theorem effect_increment (s : State) (r : Reg) (delta : Word) :
    (Port.increment r delta).effect s = answerState (s.increment r delta) := rfl
@[simp] theorem effect_decrement (s : State) (r : Reg) (delta : Word) :
    (Port.decrement r delta).effect s = answerState (s.decrement r delta) := rfl

/-- What writing one register leaves as it was. -/
theorem writeReg_frame (s : State) (r : Reg) (v : Word) :
    (∀ q, q ≠ r → (s.writeReg r v).readReg q = s.readReg q) ∧
    (∀ g a, (s.writeReg r v).mem.read g a = s.mem.read g a) ∧
    (s.writeReg r v).run = s.run ∧ (s.writeReg r v).draws = s.draws :=
  ⟨fun q hq => readReg_writeReg_ne s r q v hq, fun _ _ => rfl, rfl, rfl⟩

theorem increment_of_le (h : (s.readReg r).toNat + delta.toNat ≤ 65535) :
    s.increment r delta = .ok (s.writeReg r (s.readReg r + delta)) := by
  simp only [State.increment, incremented_false, if_pos h]

theorem increment_of_gt (h : 65535 < (s.readReg r).toNat + delta.toNat) :
    s.increment r delta = .error (.abort .arithmeticOverflow) := by
  simp only [State.increment, incremented_false, if_neg (Nat.not_le.mpr h)]

theorem decrement_of_le (h : delta.toNat ≤ (s.readReg r).toNat) :
    s.decrement r delta = .ok (s.writeReg r (s.readReg r - delta)) := by
  simp only [State.decrement, decremented_false, if_pos h]

theorem decrement_of_gt (h : (s.readReg r).toNat < delta.toNat) :
    s.decrement r delta = .error (.abort .arithmeticOverflow) := by
  simp only [State.decrement, decremented_false, if_neg (Nat.not_le.mpr h)]

/-- Settles O17. Below the overflow the port writes the sum to its register, and `writeReg_frame` is its frame. -/
theorem incrementPort : Obligations.IncrementPort := by
  intro s r delta idle
  rw [call_of_not_busy idle, effect_increment]
  refine ⟨fun fits => ?_, fun exceeds => by rw [increment_of_gt exceeds]; rfl, ?_⟩
  · refine ⟨s.writeReg r (s.readReg r + delta), by rw [increment_of_le fits]; rfl, ?_, writeReg_frame s r _⟩
    rw [readReg_writeReg_same, BitVec.toNat_add, Nat.mod_eq_of_lt (Nat.lt_succ_of_le fits)]
  · exact ⟨_, by simp only [incremented, Bool.or_true, if_true], BitVec.toNat_ofNat _ 16⟩

/-- Settles O18. Without a borrow the port writes the difference to its register, and `writeReg_frame` is its frame. -/
theorem decrementPort : Obligations.DecrementPort := by
  intro s r delta idle
  rw [call_of_not_busy idle, effect_decrement]
  refine ⟨fun fits => ?_, fun borrow => by rw [decrement_of_gt borrow]; rfl, ?_⟩
  · refine ⟨s.writeReg r (s.readReg r - delta), by rw [decrement_of_le fits]; rfl, ?_, writeReg_frame s r _⟩
    rw [readReg_writeReg_same, BitVec.toNat_sub_of_le (BitVec.le_def.mpr fits)]
  · exact ⟨_, by simp only [decremented, Bool.or_true, if_true], BitVec.toNat_ofNat _ 16⟩

/-! ## Errors and reset -/

/-- Settles O33. Each error kind has its number; an abort has none, whatever its reason. -/
theorem errorCodes : Obligations.ErrorCodes := ⟨rfl, fun _ => rfl⟩

/-- Nothing is listed after reset, so every byte below a capacity reads as an unlisted one. -/
theorem reset_read {g : Segment} {a : Nat} (h : a < g.cap) : State.reset.mem.read g a = .ok 0x00 := by
  rw [read_of_lt _ g a h]
  cases g <;> rfl

/-- Settles O21. An empty list of cells is canonical. -/
theorem resetIsWellFormed : Obligations.ResetIsWellFormed := by
  have empty (cap : Nat) : canonical cap [] := ⟨.nil, fun x hx => absurd hx List.not_mem_nil⟩
  exact ⟨⟨empty _, empty _, empty _⟩, trivial⟩

/-- Executing in a machine whose run field is marked: the same state, marked. -/
theorem exec_withRun_next {i : Instr} {s t : State} (h : exec i s = .next t) (x : Run) :
    exec i (s.withRun x) = .next (t.withRun x) := by rw [exec_withRun, h]

/-- A turn in which the decoder answers an instruction executes it. -/
theorem sequentialTurn_of_instr {i : Instr} {rest : List Byte}
    (h : decodeAt s.mem s.pc.toNat = .ok (.instr i rest)) : sequentialTurn s = exec i (s.withRun .sequential) := by
  simp only [sequentialTurn, h]

/-- A turn whose decode fails ends with the decode's error (R132). -/
theorem sequentialTurn_of_error {e : Fault} (h : decodeAt s.mem s.pc.toNat = .error e) :
    sequentialTurn s = .fault e := by
  simp only [sequentialTurn, h, raise]

/-- A turn at end-of-stream halts (R131). -/
theorem sequentialTurn_of_endOfStream (h : decodeAt s.mem s.pc.toNat = .ok .endOfStream) :
    sequentialTurn s = .next (s.withRun .halted) := by
  simp only [sequentialTurn, h]

/-- Settles O20. PC is zero after reset, so the step is the turn that decodes at address 0. -/
theorem resetIsAllZero : Obligations.ResetIsAllZero := by
  refine ⟨fun r => ?_, reset_readReg Reg.PC, fun g a => reset_read, fun m => ?_⟩
  · rw [call_of_not_busy rfl, effect_read, reset_readReg]
  · have turn : step (State.reset.withMem m) = sequentialTurn (State.reset.withMem m) := step_of_takesTurn rfl
    have pc : (State.reset.withMem m).pc.toNat = 0 := by rw [withMem_pc, State.pc, reset_readReg]; rfl
    refine ⟨fun e failed => ?_, fun i rest t decoded executed => ?_⟩
    · rw [turn, sequentialTurn_of_error (by rwa [pc])]
    · rw [turn, sequentialTurn_of_instr (by rwa [pc]), exec_withRun_next executed]
      exact ⟨_, rfl, withRun_regs t _, withRun_mem t _⟩

end Sys2Proof.Machine
end

section
/-! Executing one instruction (40_fetch_decode_advance.md R126, R127; 42_mov.md to 44_add.md): what it completes with,
what it fails with, and its frame. -/

namespace Sys2Proof.Machine

variable {op : Opcode} {L hi lo rid imm : Byte} {ops rest : List Byte} {s t u : State} {r : Reg} {e : Fault}
variable {addr : Word}

/-! ## The effect of an opcode -/

/-- The effect of an instruction on the state before PC is advanced, by its opcode. -/
def effectOf : Opcode → List Byte → State → Result State
  | .nop, _, s => .ok s
  | .mov, ops, s => movEffect ops s
  | .ldm, ops, s => ldmEffect ops s
  | .stm, ops, s => stmEffect ops s
  | .add, ops, s => addEffect ops s

/-- Every instruction is executed by the common part of R126, around its own effect. -/
theorem exec_instr (op : Opcode) (L : Byte) (ops : List Byte) (s : State) :
    exec (op.instr L ops) s = execute op L (effectOf op ops s) := by cases op <;> rfl

theorem execute_of_error (effect : Result State) (reaches : op.need ≤ L.toNat) (h : effect = .error e) :
    execute op L effect = .fault e := by
  simp only [execute, checkLength_of_le reaches, h, raise]

theorem execute_of_ok (effect : Result State) (reaches : op.need ≤ L.toNat) (h : effect = .ok u) :
    execute op L effect = .next (u.advance L) :=
  (execute_next_iff op L effect _).mpr ⟨reaches, u, h, rfl⟩

/-- A length byte below the operand count aborts, whatever the operands (30_encoding.md R98). -/
theorem exec_short (ops : List Byte) (s : State) (h : L.toNat < op.need) :
    exec (op.instr L ops) s = .fault (.abort .shortOperands) := by
  simp only [exec_instr, execute, checkLength_of_lt h]

theorem exec_of_effect_error (reaches : op.need ≤ L.toNat) (h : effectOf op ops s = .error e) :
    exec (op.instr L ops) s = .fault e := by
  rw [exec_instr, execute_of_error _ reaches h]

/-! ## Operands that fail -/

theorem operandsRI_of_slot (imm : Byte) (rest : List Byte) (h : rid.toNat = r.val) :
    operandsRI (rid :: imm :: rest) = .ok (r, zext16 imm) :=
  (operandsRI_ok_iff _ r _).mpr ⟨rid, imm, rest, rfl, h, rfl⟩

theorem operandsRI_of_invalid (imm : Byte) (rest : List Byte) (h : 10 ≤ rid.toNat) :
    operandsRI (rid :: imm :: rest) = .error .invalidRegister := by
  simp only [operandsRI, regOperand_error rid h]

theorem operandsAR_of_slot (hi lo : Byte) (rest : List Byte) (h : rid.toNat = r.val) :
    operandsAR (hi :: lo :: rid :: rest) = .ok (joinBytes hi lo, r) :=
  (operandsAR_ok_iff _ _ r).mpr ⟨hi, lo, rid, rest, rfl, rfl, h⟩

theorem operandsAR_of_invalid (hi lo : Byte) (rest : List Byte) (h : 10 ≤ rid.toNat) :
    operandsAR (hi :: lo :: rid :: rest) = .error .invalidRegister := by
  simp only [operandsAR, regOperand_error rid h]

theorem operandsRI_error_cases (h : operandsRI ops = .error e) : e = .invalidRegister ∨ e = .abort .shortOperands := by
  match ops with
  | [] => cases h; exact .inr rfl
  | [_] => cases h; exact .inr rfl
  | rid :: imm :: rest =>
    rcases regOperand_cases rid with ⟨r, slot, -⟩ | ⟨invalid, -⟩
    · rw [operandsRI_of_slot imm rest slot] at h; cases h
    · rw [operandsRI_of_invalid imm rest invalid] at h; cases h; exact .inl rfl

theorem operandsAR_error_cases (h : operandsAR ops = .error e) : e = .invalidRegister ∨ e = .abort .shortOperands := by
  match ops with
  | [] => cases h; exact .inr rfl
  | [_] => cases h; exact .inr rfl
  | [_, _] => cases h; exact .inr rfl
  | hi :: lo :: rid :: rest =>
    rcases regOperand_cases rid with ⟨r, slot, -⟩ | ⟨invalid, -⟩
    · rw [operandsAR_of_slot hi lo rest slot] at h; cases h
    · rw [operandsAR_of_invalid hi lo rest invalid] at h; cases h; exact .inl rfl

/-- The register byte of MOV is decoded first, and an invalid one is its error (R175). -/
theorem exec_mov_invalid (imm : Byte) (rest : List Byte) (s : State) (reaches : 2 ≤ L.toNat) (h : 10 ≤ rid.toNat) :
    exec (.mov L (rid :: imm :: rest)) s = .fault .invalidRegister :=
  exec_of_effect_error (op := .mov) reaches (by simp only [effectOf, movEffect, operandsRI_of_invalid imm rest h])

/-! ## The three instructions that access the data segment

They are the opcodes with three operand bytes, and they fail alike. -/

/-- The register byte is decoded before memory is touched (60_exceptions.md R181, D13). -/
theorem effectOf_of_operands_error (s : State) (three : op.need = 3) (h : operandsAR ops = .error e) :
    effectOf op ops s = .error e := by
  cases op with
  | nop => cases three
  | mov => cases three
  | ldm => simp only [effectOf, ldmEffect, h]
  | stm => simp only [effectOf, stmEffect, h]
  | add => simp only [effectOf, addEffect, h]

/-- A data access that fails its check is the error of the instruction. -/
theorem effectOf_of_check_error (s : State) (three : op.need = 3) (h : operandsAR ops = .ok (addr, r))
    (bad : checkByte .data addr.toNat = .error e) : effectOf op ops s = .error e := by
  cases op with
  | nop => cases three
  | mov => cases three
  | ldm => simp only [effectOf, ldmEffect, h, Memory.read, bad]
  | stm => simp only [effectOf, stmEffect, h, Memory.write, bad]
  | add => simp only [effectOf, addEffect, h, Memory.read, bad]

theorem checkByte_above {g : Segment} {a : Nat} (h : g.cap < a) : checkByte g a = .error .outOfBounds := if_pos h

theorem checkByte_edge {g : Segment} {a : Nat} (h : a = g.cap) : checkByte g a = .error (.abort .edgeAccess) := by
  subst h; simp [checkByte]

theorem checkByte_error_cases {g : Segment} {a : Nat} (h : checkByte g a = .error e) :
    e = .outOfBounds ∨ e = .abort .edgeAccess := by
  rcases Nat.lt_trichotomy a g.cap with below | edge | above
  · rw [(checkByte_ok_iff g a (u := ())).mpr below] at h; cases h
  · rw [checkByte_edge edge] at h; cases h; exact .inr rfl
  · rw [checkByte_above above] at h; cases h; exact .inl rfl

theorem exec_access_above (three : op.need = 3) (rest : List Byte) (s : State) (reaches : 3 ≤ L.toNat)
    (slot : rid.toNat = r.val) (h : 8192 < (joinBytes hi lo).toNat) :
    exec (op.instr L (hi :: lo :: rid :: rest)) s = .fault .outOfBounds :=
  exec_of_effect_error (three ▸ reaches)
    (effectOf_of_check_error s three (operandsAR_of_slot hi lo rest slot) (checkByte_above h))

theorem exec_access_edge (three : op.need = 3) (rest : List Byte) (s : State) (reaches : 3 ≤ L.toNat)
    (slot : rid.toNat = r.val) (h : (joinBytes hi lo).toNat = 8192) :
    exec (op.instr L (hi :: lo :: rid :: rest)) s = .fault (.abort .edgeAccess) :=
  exec_of_effect_error (three ▸ reaches)
    (effectOf_of_check_error s three (operandsAR_of_slot hi lo rest slot) (checkByte_edge h))

theorem exec_access_invalid (three : op.need = 3) (hi lo : Byte) (rest : List Byte) (s : State) (reaches : 3 ≤ L.toNat)
    (h : 10 ≤ rid.toNat) : exec (op.instr L (hi :: lo :: rid :: rest)) s = .fault .invalidRegister :=
  exec_of_effect_error (three ▸ reaches)
    (effectOf_of_operands_error s three (operandsAR_of_invalid hi lo rest h))

/-! ## Instructions that complete -/

theorem exec_mov_of_slot (imm : Byte) (rest : List Byte) (s : State) (reaches : 2 ≤ L.toNat)
    (slot : rid.toNat = r.val) :
    exec (.mov L (rid :: imm :: rest)) s = .next ((s.writeReg r (zext16 imm)).advance L) :=
  (execMov_next_iff L _ s _).mpr ⟨reaches, rid, imm, rest, r, rfl, slot, rfl⟩

variable (inside : (joinBytes hi lo).toNat < 8192)
include inside

theorem exec_ldm_of_slot (rest : List Byte) (s : State) (reaches : 3 ≤ L.toNat) (slot : rid.toNat = r.val) :
    exec (.ldm L (hi :: lo :: rid :: rest)) s =
      .next ((s.writeReg r (zext16 (s.mem.byte .data (joinBytes hi lo).toNat))).advance L) :=
  (execLdm_next_iff L _ s _).mpr ⟨reaches, hi, lo, rid, rest, r, rfl, slot, inside, rfl⟩

theorem exec_stm_of_slot (rest : List Byte) (s : State) (reaches : 3 ≤ L.toNat) (slot : rid.toNat = r.val) :
    exec (.stm L (hi :: lo :: rid :: rest)) s =
      .next ((s.withMem (s.mem.setByte .data (joinBytes hi lo).toNat (lowByte (s.readReg r)))).advance L) :=
  (execStm_next_iff L _ s _).mpr ⟨reaches, hi, lo, rid, rest, r, rfl, slot, inside, rfl⟩

theorem exec_add_of_slot (rest : List Byte) (s : State) (reaches : 3 ≤ L.toNat) (slot : rid.toNat = r.val) :
    exec (.add L (hi :: lo :: rid :: rest)) s =
      .next ((s.writeReg r (addByte (s.readReg r) (s.mem.byte .data (joinBytes hi lo).toNat))).advance L) :=
  (execAdd_next_iff L _ s _).mpr ⟨reaches, hi, lo, rid, rest, r, rfl, slot, inside, rfl⟩

omit inside

/-! ## The state after a register write and the advancement -/

theorem advance_pc_toNat (s : State) (L : Byte) : (s.advance L).pc.toNat = (s.pc.toNat + 2 + L.toNat) % 65536 := by
  rw [advance_pc, pcAfter_toNat]

/-- A register other than PC keeps the written value through the advancement, and PC is advanced from its old value. -/
theorem writeReg_advance_ne_pc (s : State) (v : Word) (L : Byte) (h : r ≠ Reg.PC) :
    ((s.writeReg r v).advance L).readReg r = v ∧
    ((s.writeReg r v).advance L).pc.toNat = (s.pc.toNat + 2 + L.toNat) % 65536 := by
  rw [advance_readReg_ne _ _ _ h, readReg_writeReg_same, advance_pc_toNat, pc_writeReg_ne s r v h.symm]
  exact ⟨rfl, rfl⟩

/-- PC as destination is advanced from the value just written (D14). -/
theorem writeReg_advance_pc (s : State) (v : Word) (L : Byte) (h : r = Reg.PC) :
    ((s.writeReg r v).advance L).pc.toNat = (v.toNat + 2 + L.toNat) % 65536 := by
  subst h
  rw [advance_pc_toNat, pc_writeReg_PC]

/-- What a register write and the advancement leave as it was. -/
theorem writeReg_advance_frame (s : State) (r : Reg) (v : Word) (L : Byte) :
    (∀ q, q ≠ r → q ≠ Reg.PC → ((s.writeReg r v).advance L).readReg q = s.readReg q) ∧
    (∀ g a, ((s.writeReg r v).advance L).mem.read g a = s.mem.read g a) ∧
    ((s.writeReg r v).advance L).run = s.run ∧ ((s.writeReg r v).advance L).draws = s.draws :=
  ⟨fun q hr hq => by rw [advance_readReg_ne _ _ _ hq, readReg_writeReg_ne _ _ _ _ hr], fun _ _ => rfl, rfl, rfl⟩

/-! ## The statements, one per instruction -/

/-- Settles O23. The state after MOV is a register write and the advancement. -/
theorem movExecutes : Obligations.MovExecutes := by
  refine ⟨fun L rid imm rest r s reaches slot => ?_, fun _ _ imm rest s => exec_mov_invalid imm rest s,
    fun _ ops s => exec_short (op := .mov) ops s, fun _ _ => rfl⟩
  refine ⟨_, exec_mov_of_slot imm rest s reaches slot, fun other => ?_, fun pc => ?_, writeReg_advance_frame s r _ L⟩
  · obtain ⟨value, pc⟩ := writeReg_advance_ne_pc s (zext16 imm) L other
    exact ⟨by rw [value, zext16_toNat], pc⟩
  · rw [writeReg_advance_pc s _ L pc, zext16_toNat]

/-- Settles O24. The state after LDM is a register write and the advancement. -/
theorem ldmExecutes : Obligations.LdmExecutes := by
  refine ⟨fun L hi lo rid rest r s reaches slot inside => ?_, fun L hi lo rid rest r s reaches slot =>
    ⟨exec_access_above (op := .ldm) rfl rest s reaches slot, exec_access_edge (op := .ldm) rfl rest s reaches slot⟩,
    fun _ hi lo _ rest s => exec_access_invalid (op := .ldm) rfl hi lo rest s,
    fun _ ops s => exec_short (op := .ldm) ops s, fun _ _ _ => rfl⟩
  refine ⟨_, _, exec_ldm_of_slot inside rest s reaches slot, read_of_lt s.mem .data _ inside, fun other => ?_,
    fun pc => ?_, writeReg_advance_frame s r _ L⟩
  · obtain ⟨value, pc⟩ := writeReg_advance_ne_pc s (zext16 _) L other
    exact ⟨by rw [value, zext16_toNat], pc⟩
  · rw [writeReg_advance_pc s _ L pc, zext16_toNat]

/-- Settles O25. The state after STM is a stored data byte and the advancement. -/
theorem stmExecutes : Obligations.StmExecutes := by
  refine ⟨fun L hi lo rid rest r s reaches slot inside => ?_, fun L hi lo rid rest r s reaches slot =>
    ⟨exec_access_above (op := .stm) rfl rest s reaches slot, exec_access_edge (op := .stm) rfl rest s reaches slot⟩,
    fun _ hi lo _ rest s => exec_access_invalid (op := .stm) rfl hi lo rest s,
    fun _ ops s => exec_short (op := .stm) ops s, fun _ _ _ => rfl⟩
  exact ⟨_, exec_stm_of_slot inside rest s reaches slot, read_setByte_same inside, fun g a => read_setByte_other,
    advance_pc_toNat _ L, fun q hq => advance_readReg_ne _ q L hq, rfl, rfl⟩

/-- Settles O26. The state after ADD is a register write and the advancement. -/
theorem addExecutes : Obligations.AddExecutes := by
  refine ⟨fun L hi lo rid rest r s reaches slot inside => ?_, fun L hi lo rid rest r s reaches slot =>
    ⟨exec_access_above (op := .add) rfl rest s reaches slot, exec_access_edge (op := .add) rfl rest s reaches slot⟩,
    fun _ hi lo _ rest s => exec_access_invalid (op := .add) rfl hi lo rest s,
    fun _ ops s => exec_short (op := .add) ops s, fun _ _ _ => rfl⟩
  refine ⟨_, _, exec_add_of_slot inside rest s reaches slot, read_of_lt s.mem .data _ inside, fun other => ?_,
    fun pc => ?_, writeReg_advance_frame s r _ L⟩
  · obtain ⟨value, pc⟩ := writeReg_advance_ne_pc s (addByte _ _) L other
    exact ⟨by rw [value, addByte_toNat], pc⟩
  · rw [writeReg_advance_pc s _ L pc, addByte_toNat, pc]
    simp only [State.pc]
    omega

/-! ## A length byte other than the operand count (30_encoding.md R98) -/

/-- An effect looks at the operand bytes its opcode asks for, and at no more (R126). -/
theorem effectOf_take (op : Opcode) (s : State) (h : op.need ≤ ops.length) :
    effectOf op (ops.take op.need) s = effectOf op ops s := by
  cases op with
  | nop => rfl
  | mov => match ops, h with | _ :: _ :: _, _ => rfl
  | ldm => match ops, h with | _ :: _ :: _ :: _, _ => rfl
  | stm => match ops, h with | _ :: _ :: _ :: _, _ => rfl
  | add => match ops, h with | _ :: _ :: _ :: _, _ => rfl

theorem need_toNat (op : Opcode) : (BitVec.ofNat 8 op.need).toNat = op.need := by cases op <;> rfl

/-- A longer length byte advances PC by the canonical amount and by the extra bytes (D7). -/
theorem advance_longer (s : State) (h : op.need ≤ L.toNat) :
    s.advance L = (s.advance (BitVec.ofNat 8 op.need)).writeReg Reg.PC
      ((s.advance (BitVec.ofNat 8 op.need)).pc + BitVec.ofNat 16 (L.toNat - op.need)) := by
  have pc : pcAfter s.pc (BitVec.ofNat 8 op.need) + BitVec.ofNat 16 (L.toNat - op.need) = pcAfter s.pc L := by
    apply BitVec.eq_of_toNat_eq
    rw [BitVec.toNat_add, pcAfter_toNat, pcAfter_toNat, need_toNat, BitVec.toNat_ofNat]
    omega
  rw [advance_pc, pc]
  refine State.ext_fields (fun q => ?_) rfl rfl rfl
  by_cases hq : q = Reg.PC
  · rw [hq, readReg_writeReg_same, advance_readReg, if_pos rfl]
  · rw [readReg_writeReg_ne _ _ _ _ hq, advance_readReg_ne _ _ _ hq, advance_readReg_ne _ _ _ hq]

/-- Settles O27. Both forms run the same effect; only the advancement differs. -/
theorem nonCanonicalLength : Obligations.NonCanonicalLength := by
  refine ⟨fun op L ops s => exec_short ops s, fun op L ops s reaches len => ?_, fun m pc op hn before opcode overrun =>
    decodeAt_overrun m pc hn before ((opDecode_some_iff _ _).mpr opcode) overrun⟩
  have canonical : op.need ≤ (BitVec.ofNat 8 op.need).toNat := (need_toNat op).ge
  rw [exec_instr, exec_instr, effectOf_take op s (len ▸ reaches)]
  cases effect : effectOf op ops s with
  | error e =>
    rw [execute_of_error _ canonical rfl, execute_of_error _ reaches rfl]
    exact ⟨fun u hu => (nomatch hu), fun e' he => he⟩
  | ok v =>
    rw [execute_of_ok _ canonical rfl, execute_of_ok _ reaches rfl]
    refine ⟨fun u hu => ?_, fun e he => (nomatch he)⟩
    cases hu
    rw [← advance_longer v reaches]

/-! ## Destinations -/

theorem regByte_toNat (r : Reg) : (regByte hw r).toNat = r.val := by revert r; decide

theorem eq_regByte_iff : rid = regByte hw r ↔ rid.toNat = r.val := by
  rw [← regByte_toNat r]
  exact ⟨fun h => h ▸ rfl, BitVec.eq_of_toNat_eq⟩

theorem regByte_injective {q r : Reg} (h : regByte hw q = regByte hw r) : q = r :=
  Fin.ext (by rw [← regByte_toNat q, ← regByte_toNat r, h])

/-- All an instruction that completes can do, with its destination (10_state.md R23): NOP writes nothing, STM stores a
data byte, and the others write the register they name; then PC is advanced. -/
theorem exec_destination_cases {i : Instr} (h : exec i s = .next t) :
    (destination i = none ∧ t = s.advance i.len) ∨
    (∃ r v, destination i = some (regByte hw r) ∧ t = (s.writeReg r v).advance i.len) ∨
    (destination i = none ∧ i.opcode = .stm ∧ ∃ m, t = (s.withMem m).advance i.len) := by
  cases i with
  | nop L ops =>
    rw [exec_nop_eq] at h
    cases h
    exact .inl ⟨rfl, rfl⟩
  | mov L ops =>
    obtain ⟨-, rid, imm, _, r, rfl, slot, rfl⟩ := (execMov_next_iff L ops s t).mp h
    exact .inr (.inl ⟨r, _, congrArg some (eq_regByte_iff.mpr slot), rfl⟩)
  | ldm L ops =>
    obtain ⟨-, _, _, rid, _, r, rfl, slot, -, rfl⟩ := (execLdm_next_iff L ops s t).mp h
    exact .inr (.inl ⟨r, _, congrArg some (eq_regByte_iff.mpr slot), rfl⟩)
  | stm L ops =>
    obtain ⟨-, _, _, _, _, r, -, -, -, rfl⟩ := (execStm_next_iff L ops s t).mp h
    exact .inr (.inr ⟨rfl, rfl, _, rfl⟩)
  | add L ops =>
    obtain ⟨-, _, _, rid, _, r, rfl, slot, -, rfl⟩ := (execAdd_next_iff L ops s t).mp h
    exact .inr (.inl ⟨r, _, congrArg some (eq_regByte_iff.mpr slot), rfl⟩)

/-- Settles O28. In each case of `exec_destination_cases`, by the frame of what it writes. -/
theorem onlyDestinationChanges : Obligations.OnlyDestinationChanges := by
  intro i s t h
  rcases exec_destination_cases h with ⟨-, rfl⟩ | ⟨r, v, named, rfl⟩ | ⟨-, stm, m, rfl⟩
  · exact ⟨fun q hq _ => advance_readReg_ne s q _ hq, fun _ _ _ => rfl, rfl, rfl⟩
  · obtain ⟨registers, memory, run, draws⟩ := writeReg_advance_frame s r v i.len
    refine ⟨fun q hq other => registers q (fun same => other ?_) hq, fun _ => memory, run, draws⟩
    rw [same, named]
  · exact ⟨fun q hq _ => advance_readReg_ne _ q _ hq, fun other => absurd stm other, rfl, rfl⟩

/-- Settles O29. PC is advanced from what the effect leaves in it: its old value, or the value written. -/
theorem pcAdvancesByLength : Obligations.PcAdvancesByLength := by
  intro i s t h
  refine ⟨fun other => ?_, ?mov, ?ldm, ?add⟩
  · rcases exec_destination_cases h with ⟨-, rfl⟩ | ⟨r, v, named, rfl⟩ | ⟨-, -, m, rfl⟩
    · exact advance_pc_toNat s i.len
    · have hr : r ≠ Reg.PC := fun pc => other (pc ▸ named)
      exact (writeReg_advance_ne_pc s v i.len hr).2
    · exact advance_pc_toNat (s.withMem m) i.len
  case mov =>
    rintro L rid imm rest rfl pc
    obtain ⟨-, _, _, _, r, ⟨⟩, slot, rfl⟩ := (execMov_next_iff L _ s t).mp h
    have hr : r = Reg.PC := regByte_injective ((eq_regByte_iff.mpr slot).symm.trans pc)
    rw [writeReg_advance_pc s _ L hr, zext16_toNat]
  case ldm =>
    rintro L hi lo rid rest b rfl pc read
    obtain ⟨-, _, _, _, _, r, ⟨⟩, slot, -, rfl⟩ := (execLdm_next_iff L _ s t).mp h
    obtain ⟨-, rfl⟩ := (read_ok_iff _ _ _).mp read
    have hr : r = Reg.PC := regByte_injective ((eq_regByte_iff.mpr slot).symm.trans pc)
    rw [writeReg_advance_pc s _ L hr, zext16_toNat]
  case add =>
    rintro L hi lo rid rest b rfl pc read
    obtain ⟨-, _, _, _, _, r, ⟨⟩, slot, -, rfl⟩ := (execAdd_next_iff L _ s t).mp h
    obtain ⟨-, rfl⟩ := (read_ok_iff _ _ _).mp read
    have hr : r = Reg.PC := regByte_injective ((eq_regByte_iff.mpr slot).symm.trans pc)
    rw [writeReg_advance_pc s _ L hr, addByte_toNat, hr]
    rfl

/-! ## The canonical instructions of the assembler forms (30_encoding.md R103) -/

/-- The address operand of an assembler form, stored most significant byte first, is read back (R99). -/
theorem joinBytes_extract (addr : Word) : joinBytes (addr.extractLsb' 8 8) (addr.extractLsb' 0 8) = addr := by
  apply BitVec.eq_of_toNat_eq
  have := addr.isLt
  rw [joinBytes_toNat, BitVec.extractLsb'_toNat, BitVec.extractLsb'_toNat]
  simp only [Nat.shiftRight_eq_div_pow]
  omega

theorem exec_asmMov (r : Reg) (imm : Byte) (s : State) :
    exec (asmMov r imm) s = .next ((s.writeReg r (zext16 imm)).advance 2) :=
  exec_mov_of_slot imm [] s (Nat.le_refl 2) (regByte_toNat r)

variable (r) (below : addr.toNat < 8192)
include below

theorem exec_asmLdm (s : State) :
    exec (asmLdm addr r) s = .next ((s.writeReg r (zext16 (s.mem.byte .data addr.toNat))).advance 3) := by
  have join := joinBytes_extract addr
  rw [asmLdm, exec_ldm_of_slot (L := 3) (by rwa [join]) [] s (Nat.le_refl 3) (regByte_toNat r), join]

theorem exec_asmStm (s : State) : exec (asmStm addr r) s =
    .next ((s.withMem (s.mem.setByte .data addr.toNat (lowByte (s.readReg r)))).advance 3) := by
  have join := joinBytes_extract addr
  rw [asmStm, exec_stm_of_slot (L := 3) (by rwa [join]) [] s (Nat.le_refl 3) (regByte_toNat r), join]

theorem exec_asmAdd (s : State) : exec (asmAdd addr r) s =
    .next ((s.writeReg r (addByte (s.readReg r) (s.mem.byte .data addr.toNat))).advance 3) := by
  have join := joinBytes_extract addr
  rw [asmAdd, exec_add_of_slot (L := 3) (by rwa [join]) [] s (Nat.le_refl 3) (regByte_toNat r), join]

omit below

/-- Settles O30. Each canonical form completes; PC is advanced from the value it writes to PC, or from the old one. -/
theorem controlTransferThroughPc : Obligations.ControlTransferThroughPc := by
  refine ⟨fun imm s => ⟨_, exec_asmMov Reg.PC imm s, ?mov⟩,
    fun addr s below => ⟨_, _, read_of_lt s.mem .data _ below, exec_asmLdm Reg.PC below s, ?ldm⟩,
    fun addr s below => ⟨_, _, read_of_lt s.mem .data _ below, exec_asmAdd Reg.PC below s, ?add⟩,
    fun addr s below => ⟨_, exec_asmStm Reg.PC below s, read_setByte_same below, advance_pc_toNat _ 3⟩⟩
  case mov =>
    rw [writeReg_advance_pc s _ 2 rfl, zext16_toNat]
    simp only [BitVec.reduceToNat]
    omega
  case ldm =>
    rw [writeReg_advance_pc s _ 3 rfl, zext16_toNat]
    simp only [BitVec.reduceToNat]
    omega
  case add =>
    rw [writeReg_advance_pc s _ 3 rfl, addByte_toNat]
    simp only [State.pc, BitVec.reduceToNat]
    omega

/-- Settles O31. STM stores the low byte, the advancement leaves it, and LDM reads it back. -/
theorem storeThenLoad : Obligations.StoreThenLoad := by
  intro addr r q s below other
  refine ⟨_, _, exec_asmStm r below s, exec_asmLdm q below _, ?_⟩
  have stored : (s.mem.setByte .data addr.toNat (lowByte (s.readReg r))).byte .data addr.toNat
      = lowByte (s.readReg r) := by rw [byte_setByte, if_pos ⟨rfl, rfl⟩]
  rw [(writeReg_advance_ne_pc _ _ 3 other).1, zext16_toNat, advance_mem, withMem_mem, stored, lowByte_toNat]

/-! ## The errors of a sequential turn (60_exceptions.md R172 to R177) -/

theorem read_error_cases {m : Memory} {g : Segment} {a : Nat} (h : m.read g a = .error e) :
    e = .outOfBounds ∨ e = .abort .edgeAccess := by
  unfold Memory.read at h
  split at h
  · next check => cases h; exact checkByte_error_cases check
  · cases h

theorem write_error_cases {m : Memory} {g : Segment} {a : Nat} {b : Byte} (h : m.write g a b = .error e) :
    e = .outOfBounds ∨ e = .abort .edgeAccess := by
  unfold Memory.write at h
  split at h
  · next check => cases h; exact checkByte_error_cases check
  · cases h

/-- The errors an instruction's effect can end in: of its operands, or of its data access. -/
theorem effectOf_error_cases (h : effectOf op ops s = .error e) :
    (e = .invalidRegister ∨ e = .abort .shortOperands) ∨ (e = .outOfBounds ∨ e = .abort .edgeAccess) := by
  cases op with
  | nop => cases h
  | mov =>
    simp only [effectOf, movEffect] at h
    split at h
    · next operands => cases h; exact .inl (operandsRI_error_cases operands)
    · cases h
  | ldm | add =>
    simp only [effectOf, ldmEffect, addEffect] at h
    split at h
    · next operands => cases h; exact .inl (operandsAR_error_cases operands)
    · split at h
      · next access => cases h; exact .inr (read_error_cases access)
      · cases h
  | stm =>
    simp only [effectOf, stmEffect] at h
    split at h
    · next operands => cases h; exact .inl (operandsAR_error_cases operands)
    · split at h
      · next access => cases h; exact .inr (write_error_cases access)
      · cases h

theorem exec_fault_cases {i : Instr} (h : exec i s = .fault e) :
    (e = .invalidRegister ∨ e = .abort .shortOperands) ∨ (e = .outOfBounds ∨ e = .abort .edgeAccess) := by
  rw [← instr_eta i, exec_instr] at h
  rcases execute_cases i.opcode i.len (effectOf i.opcode i.ops s) with ⟨-, short⟩ | ⟨e', -, effect, failed⟩ |
    ⟨u, -, -, ok⟩
  · rw [short] at h; cases h; exact .inl (.inr rfl)
  · rw [failed] at h; cases h; exact effectOf_error_cases effect
  · rw [ok] at h; cases h

theorem sequentialTurn_not_refused (s : State) (x : Refusal) : sequentialTurn s ≠ .refused x := by
  unfold sequentialTurn
  split
  · rintro ⟨⟩
  · rintro ⟨⟩
  · exact exec_not_refused _ _ x

/-- All a turn of the sequential loop can do when it ends in an error: the decode fails, or the decoded instruction
does. -/
theorem sequentialTurn_fault_cases (h : sequentialTurn s = .fault e) :
    decodeAt s.mem s.pc.toNat = .error e ∨
    ∃ i rest, decodeAt s.mem s.pc.toNat = .ok (.instr i rest) ∧ exec i (s.withRun .sequential) = .fault e := by
  unfold sequentialTurn at h
  split at h
  · next decoded => cases h; exact .inl decoded
  · cases h
  · next decoded => exact .inr ⟨_, _, decoded, h⟩

/-- Settles O32. The error is of the decode or of the execution, and each has its own list. -/
theorem sequentialErrorKinds : Obligations.SequentialErrorKinds := by
  refine fun s => ⟨fun e h => ?_, sequentialTurn_not_refused s⟩
  rcases sequentialTurn_fault_cases h with decode | ⟨i, rest, -, execution⟩
  · have := decodeAt_error_cases decode
    tauto
  · have := exec_fault_cases execution
    tauto

end Sys2Proof.Machine
end

section
/-! What a step of any run mode can do to memory and to the run field, and the invariant of the machine (10_state.md R33
to R36; 60_exceptions.md R194). -/

namespace Sys2Proof.Machine

variable {s t : State}

/-! ## The three modes of a step -/

/-- A step is a turn of the sequential loop, of the scan, or of the dispatch phase. -/
theorem step_cases (s : State) :
    (s.run.takesTurn = true ∧ step s = sequentialTurn s) ∨
    (∃ c n, s.run = .scanning c n ∧ step s = scanTurn c n s) ∨
    (∃ ts, s.run = .concurrent ts ∧ step s = tasksTurn ts s) := by
  cases hr : s.run with
  | idle => exact .inl ⟨rfl, step_of_takesTurn (by rw [hr]; rfl)⟩
  | sequential => exact .inl ⟨rfl, step_of_takesTurn (by rw [hr]; rfl)⟩
  | halted => exact .inl ⟨rfl, step_of_takesTurn (by rw [hr]; rfl)⟩
  | joined => exact .inl ⟨rfl, step_of_takesTurn (by rw [hr]; rfl)⟩
  | scanning c n => exact .inr (.inl ⟨c, n, rfl, step_scanning hr⟩)
  | concurrent ts => exact .inr (.inr ⟨ts, rfl, step_concurrent hr⟩)

/-! ## Memory -/

/-- What one step may do to memory: nothing, or store one byte of the data segment. -/
def StoresAtMostOneDataByte (m m' : Memory) : Prop := m' = m ∨ ∃ a b, a < 8192 ∧ m' = m.setByte .data a b

namespace StoresAtMostOneDataByte

variable {m m' : Memory} (h : StoresAtMostOneDataByte m m')
include h

theorem code_eq : m'.code = m.code := by
  rcases h with rfl | ⟨a, b, -, rfl⟩
  · rfl
  · exact setByte_data_code m a b

theorem stack_eq : m'.stack = m.stack := by
  rcases h with rfl | ⟨a, b, -, rfl⟩
  · rfl
  · exact setByte_data_stack m a b

theorem keeps_wf (wf : m.wf) : m'.wf := by
  rcases h with rfl | ⟨a, b, below, rfl⟩
  · exact wf
  · exact setByte_wf wf below

end StoresAtMostOneDataByte

theorem exec_stores {i : Instr} (h : exec i s = .next t) : StoresAtMostOneDataByte s.mem t.mem := by
  rcases exec_next_cases h with rfl | ⟨r, v, rfl⟩ | ⟨a, b, below, rfl⟩
  · exact .inl rfl
  · exact .inl rfl
  · exact .inr ⟨a, b, below, rfl⟩

theorem sequentialTurn_stores (h : sequentialTurn s = .next t) : StoresAtMostOneDataByte s.mem t.mem := by
  rcases sequentialTurn_next_cases h with ⟨-, rfl⟩ | ⟨i, rest, -, executed⟩
  · exact .inl rfl
  · exact exec_stores (s := s.withRun .sequential) executed

theorem scanTurn_mem {c n : Nat} (h : scanTurn c n s = .next t) : t.mem = s.mem := by
  obtain ⟨-, ⟨-, rfl⟩ | ⟨-, rfl⟩⟩ := scanTurn_next_cases h <;> rfl

theorem doAction_stores {left : Nat} {a : Action} {x : Task} (h : doAction left a s = .next (x, t)) :
    StoresAtMostOneDataByte s.mem t.mem := by
  obtain ⟨x', u, done, shared, -, -⟩ := doAction_cases left a s
  obtain ⟨rfl, rfl⟩ := Prod.mk.inj (Host.Outcome.next.inj (done.symm.trans h))
  rcases shared with rfl | ⟨r, v, rfl⟩ | ⟨b, y, below, rfl⟩
  · exact .inl rfl
  · exact .inl rfl
  · exact .inr ⟨b, y, below, rfl⟩

/-- All a turn of the dispatch phase can do when it answers a next state: join, or put one task, whose next action is
done or finds its lock poisoned, back in its place. -/
theorem tasksTurn_next_cases {ts : List Task} (h : tasksTurn ts s = .next t) :
    t = s.withRun .joined ∨
    (∃ k left a x u, ts[k]? = some (.live left a) ∧
      (doAction left a s = .next (x, u) ∨ (.failed .internalFault ∈ ts ∧ x = .failed .lockPoisoned ∧ u = s)) ∧
      t = (u.withRun (.concurrent (ts.set k x))).drawn) := by
  rcases tasksTurn_cases ts s with ⟨-, join⟩ | ⟨k, left, a, live, ⟨aborted, poisoned⟩ | ⟨x, u, done, turn⟩⟩
  · rw [join] at h
    rcases joinTasks_cases ts s with ⟨-, joined⟩ | ⟨e, -, failed⟩
    · rw [joined] at h; cases h; exact .inl rfl
    · rw [failed] at h; cases h
  · rw [poisoned] at h; cases h; exact .inr ⟨k, left, a, _, s, live, .inr ⟨aborted, rfl, rfl⟩, rfl⟩
  · rw [turn] at h; cases h; exact .inr ⟨k, left, a, x, u, live, .inl done, rfl⟩

theorem tasksTurn_stores {ts : List Task} (h : tasksTurn ts s = .next t) : StoresAtMostOneDataByte s.mem t.mem := by
  rcases tasksTurn_next_cases h with rfl | ⟨k, left, a, x, u, -, done | ⟨-, -, rfl⟩, rfl⟩
  · exact .inl rfl
  · exact doAction_stores (t := u) done
  · exact .inl rfl

/-- All a step of any run mode can do to memory. -/
theorem step_stores (h : step s = .next t) : StoresAtMostOneDataByte s.mem t.mem := by
  rcases step_cases s with ⟨-, turn⟩ | ⟨c, n, -, turn⟩ | ⟨ts, -, turn⟩ <;> rw [turn] at h
  · exact sequentialTurn_stores h
  · exact .inl (scanTurn_mem h)
  · exact tasksTurn_stores h

/-- Settles O43. A step stores at most a data byte, so code and stack hold the same cells, and the decoder reads code
only. -/
theorem stepsNeverWriteCodeOrStack : Obligations.StepsNeverWriteCodeOrStack := by
  intro s t h
  have code := (step_stores h).code_eq
  have stack := (step_stores h).stack_eq
  exact ⟨read_eq_of_cells_eq (g := .code) code, read_eq_of_cells_eq (g := .stack) stack, decodeAt_eq_of_code_eq code⟩

/-! ## The run field -/

theorem exec_run {i : Instr} (h : exec i s = .next t) : t.run = s.run := by
  rcases exec_next_cases h with rfl | ⟨r, v, rfl⟩ | ⟨a, b, -, rfl⟩ <;> rfl

theorem sequentialTurn_run (h : sequentialTurn s = .next t) : t.run = .halted ∨ t.run = .sequential := by
  rcases sequentialTurn_next_cases h with ⟨-, rfl⟩ | ⟨i, rest, -, executed⟩
  · exact .inl rfl
  · exact .inr (exec_run executed)

theorem dispatchTasks_wf (n : Nat) : (Run.concurrent (dispatchTasks n)).wf := by
  intro x hx
  rw [eq_fresh_of_mem_dispatchTasks hx]
  exact ⟨by decide, Nat.le_refl 10⟩

theorem scanTurn_run_wf {c n : Nat} (h : scanTurn c n s = .next t) : t.run.wf := by
  obtain ⟨-, ⟨-, rfl⟩ | ⟨-, rfl⟩⟩ := scanTurn_next_cases h
  · exact dispatchTasks_wf n
  · trivial

theorem wf_of_finished {x : Task} (h : x.finished) : x.wf := by
  cases x with
  | live left a => exact h.elim
  | returned => trivial
  | failed e => trivial

/-- An atomic action leaves the task finished, or with at least one iteration and no more than before. -/
theorem doAction_task_wf {left : Nat} {a : Action} {x : Task} (wf : (Task.live left a).wf)
    (h : doAction left a s = .next (x, t)) : x.wf := by
  obtain ⟨x', u, done, -, progress, -⟩ := doAction_cases left a s
  obtain ⟨rfl, rfl⟩ := Prod.mk.inj (Host.Outcome.next.inj (done.symm.trans h))
  obtain ⟨positive, bounded⟩ := wf
  rcases progress with finished | ⟨left', a', rfl, fewer, still⟩
  · exact wf_of_finished finished
  · exact ⟨still positive, fewer.trans bounded⟩

theorem tasksTurn_run_wf {ts : List Task} (wf : ∀ x ∈ ts, x.wf) (h : tasksTurn ts s = .next t) : t.run.wf := by
  rcases tasksTurn_next_cases h with rfl | ⟨k, left, a, x, u, live, done, rfl⟩
  · trivial
  · intro y hy
    rcases List.mem_or_eq_of_mem_set hy with old | rfl
    · exact wf y old
    · rcases done with done | ⟨-, rfl, -⟩
      · exact doAction_task_wf (wf _ (List.mem_of_getElem? live)) done
      · trivial

/-- A step keeps the run field well-formed, whatever memory holds. -/
theorem step_run_wf (wf : s.run.wf) (h : step s = .next t) : t.run.wf := by
  rcases step_cases s with ⟨-, turn⟩ | ⟨c, n, -, turn⟩ | ⟨ts, run, turn⟩ <;> rw [turn] at h
  · rcases sequentialTurn_run h with halted | sequential
    · rw [halted]; trivial
    · rw [sequential]; trivial
  · exact scanTurn_run_wf h
  · rw [run] at wf
    exact tasksTurn_run_wf wf h

/-- Settles O41. Memory by `step_stores`, the tasks by `step_run_wf`. -/
theorem stepKeepsInvariant : Obligations.StepKeepsInvariant := fun _ _ ⟨memory, run⟩ h =>
  ⟨(step_stores h).keeps_wf memory, step_run_wf run h⟩

/-! ## No step is refused (00_scope.md R9) -/

theorem tasksTurn_not_refused (ts : List Task) (s : State) (x : Refusal) : tasksTurn ts s ≠ .refused x := by
  rcases tasksTurn_cases ts s with ⟨-, join⟩ | ⟨k, left, a, -, ⟨-, poisoned⟩ | ⟨y, u, -, turn⟩⟩
  · rw [join]
    rcases joinTasks_cases ts s with ⟨-, joined⟩ | ⟨e, -, failed⟩
    · rw [joined]; rintro ⟨⟩
    · rw [failed]; rintro ⟨⟩
  · rw [poisoned]; rintro ⟨⟩
  · rw [turn]; rintro ⟨⟩

/-- Settles O45. No turn of any mode is refused. -/
theorem noStepIsRefused : Obligations.NoStepIsRefused := by
  intro s x
  rcases step_cases s with ⟨-, turn⟩ | ⟨c, n, -, turn⟩ | ⟨ts, -, turn⟩ <;> rw [turn]
  · exact sequentialTurn_not_refused s x
  · exact scanTurn_not_refused c n s x
  · exact tasksTurn_not_refused ts s x

/-! ## The ports -/

variable {α : Type} {a : Answer} {wrap : α → Answer}

/-- A read port that answers leaves the state as it was. -/
theorem answerRead_next_iff {result : Result α} :
    answerRead s wrap result = .next (t, a) ↔ t = s ∧ ∃ x, result = .ok x ∧ a = wrap x := by
  cases result <;> simp [answerRead, raise, eq_comm]

theorem answerWrite_next_iff {result : Result Memory} :
    answerWrite s result = .next (t, a) ↔ ∃ m, result = .ok m ∧ t = s.withMem m ∧ a = .unit := by
  cases result <;> simp [answerWrite, raise, eq_comm]

theorem answerState_next_iff {result : Result State} :
    answerState result = .next (t, a) ↔ result = .ok t ∧ a = .unit := by
  cases result <;> simp [answerState, raise, eq_comm]

theorem increment_ok {r : Reg} {delta : Word} (h : s.increment r delta = .ok t) : ∃ v, t = s.writeReg r v := by
  unfold State.increment at h
  split at h
  · cases h
  · next v _ => cases h; exact ⟨v, rfl⟩

theorem decrement_ok {r : Reg} {delta : Word} (h : s.decrement r delta = .ok t) : ∃ v, t = s.writeReg r v := by
  unfold State.decrement at h
  split at h
  · cases h
  · next v _ => cases h; exact ⟨v, rfl⟩

/-- What `load_code` answers is the memory it stored and how much it copied. -/
theorem effect_loadCode_next {start : Nat} {bytes : List Byte}
    (h : (Port.loadCode start bytes).effect s = .next (t, a)) :
    ∃ m n, s.mem.loadCode start bytes = .ok (m, n) ∧ t = s.withMem m ∧ a = .count n := by
  simp only [Port.effect] at h
  split at h
  · cases h
  · next m n load => cases h; exact ⟨m, n, load, rfl, rfl⟩

theorem effect_execute_next {i : Instr} (h : (Port.execute i).effect s = .next (t, a)) :
    exec i s = .next t ∧ a = .unit := by
  simp only [Port.effect] at h
  split at h
  · cases h
  · cases h
  · next u executed => cases h; exact ⟨executed, rfl⟩

/-- A port that is answered was called between runs, and did what its effect is (R11). -/
theorem effect_of_call {p : Port} (h : p.call s = .next (t, a)) : p.effect s = .next (t, a) := by
  unfold Port.call at h
  split at h
  · cases h
  · exact h

/-- The state with a well-formed memory in place of its own is well-formed. -/
theorem withMem_wf {m : Memory} (wf : s.wf) (h : m.wf) : (s.withMem m).wf := ⟨h, wf.2⟩

theorem effect_wf {p : Port} (wf : s.wf) (h : p.effect s = .next (t, a)) : t.wf := by
  cases p with
  | construct => cases h; exact resetIsWellFormed
  | loadCode start bytes =>
    obtain ⟨m, n, load, rfl, -⟩ := effect_loadCode_next h
    exact withMem_wf wf (loadCode_wf wf.1 load)
  | writeCode addr b | writeData addr b | writeStack addr b =>
    obtain ⟨m, write, rfl, -⟩ := answerWrite_next_iff.mp h
    exact withMem_wf wf (write_wf wf.1 write)
  | writeDataSlice bytes addr =>
    obtain ⟨m, write, rfl, -⟩ := answerWrite_next_iff.mp h
    exact withMem_wf wf (writeDataSlice_wf wf.1 write)
  | readCode addr | readData addr | readStack addr | readCodeSlice addr n | readUnified addr | decode pc =>
    obtain ⟨rfl, -⟩ := answerRead_next_iff.mp h
    exact wf
  | read r => cases h; exact wf
  | write r v => cases h; exact wf
  | increment r delta =>
    obtain ⟨v, rfl⟩ := increment_ok (answerState_next_iff.mp h).1
    exact wf
  | decrement r delta =>
    obtain ⟨v, rfl⟩ := decrement_ok (answerState_next_iff.mp h).1
    exact wf
  | execute i =>
    obtain ⟨executed, -⟩ := effect_execute_next h
    exact ⟨(exec_stores executed).keeps_wf wf.1, (exec_run executed).symm ▸ wf.2⟩
  | runSequential => cases h; exact ⟨wf.1, trivial⟩
  | runConcurrent => cases h; exact ⟨wf.1, trivial⟩

/-- Settles O42. A port that is answered does its effect, and every effect keeps the invariant. -/
theorem portsKeepInvariant : Obligations.PortsKeepInvariant := fun _ _ _ _ wf h => effect_wf wf (effect_of_call h)

/-! ## The machine of a driver (10_state.md R36) -/

/-- No operation of the driver lists a byte of the stack segment. -/
theorem effect_stack_of_ofDriver {p : Port} (driver : p.ofDriver = true) (h : p.effect s = .next (t, a)) :
    t.mem.stack = s.mem.stack := by
  cases p with
  | loadCode start bytes =>
    obtain ⟨m, n, load, rfl, -⟩ := effect_loadCode_next h
    obtain ⟨-, rfl, -⟩ := (loadCode_ok_iff _ _).mp load
    exact setBytes_code_stack s.mem start bytes
  | writeDataSlice bytes addr =>
    obtain ⟨m, write, rfl, -⟩ := answerWrite_next_iff.mp h
    obtain ⟨-, rfl⟩ := (writeDataSlice_ok_iff _ _).mp write
    exact setBytes_data_stack s.mem addr bytes
  | runSequential => cases h; rfl
  | runConcurrent => cases h; rfl
  | construct | writeCode | writeData | writeStack | readCode | readData | readStack | readCodeSlice | readUnified
  | read | write | increment | decrement | decode | execute => cases driver

/-- In a machine driven only by its driver no byte of the stack segment is ever listed. -/
theorem stack_nil_of_driverReachable (h : DriverReachable s) : s.mem.stack = [] := by
  induction h with
  | construct => rfl
  | step _ stepped ih => rw [(step_stores stepped).stack_eq, ih]
  | call _ driver called ih => rw [effect_stack_of_ofDriver driver (effect_of_call called), ih]
  | failed _ _ left ih =>
    obtain ⟨-, rfl⟩ := afterFault_some_iff.mp left
    exact ih

/-- Settles O46. No stack byte is listed, and an unlisted byte reads as 0x00. -/
theorem drivenStackStaysZero : Obligations.DrivenStackStaysZero := by
  intro s reachable a below
  have zero : s.mem.byte .stack a = 0x00 := by
    rw [Memory.byte, Memory.cells, stack_nil_of_driverReachable reachable]
    rfl
  rw [read_of_lt s.mem .stack a below, zero]

end Sys2Proof.Machine
end

section
/-! No step reads the stack segment (10_state.md R36): replacing that segment commutes with every turn of every run
mode. -/

namespace Sys2Proof.Machine

/-- An outcome with a function applied to what it goes on with. -/
def mapNext {α β : Type} (f : α → β) : Host.Outcome α Fault Refusal → Host.Outcome β Fault Refusal
  | .next a => .next (f a)
  | .fault e => .fault e
  | .refused r => .refused r

/-- The state with another stack segment. -/
def State.withStack (cells : List Host.Cell) (s : State) : State := s.withMem (s.mem.withCells .stack cells)

variable (cells : List Host.Cell) (s : State)

/-! ## What the other operations see of it -/

@[simp] theorem withStack_pc : (s.withStack cells).pc = s.pc := rfl
@[simp] theorem withStack_readReg (r : Reg) : (s.withStack cells).readReg r = s.readReg r := rfl
@[simp] theorem withStack_draws : (s.withStack cells).draws = s.draws := rfl

@[simp] theorem withStack_read_code (a : Nat) : (s.withStack cells).mem.read .code a = s.mem.read .code a :=
  read_eq_of_cells_eq (g := .code) rfl a

@[simp] theorem withStack_read_data (a : Nat) : (s.withStack cells).mem.read .data a = s.mem.read .data a :=
  read_eq_of_cells_eq (g := .data) rfl a

@[simp] theorem withStack_decodeAt (pc : Nat) : decodeAt (s.withStack cells).mem pc = decodeAt s.mem pc :=
  decodeAt_eq_of_code_eq (m := s.mem) (m' := (s.withStack cells).mem) rfl pc

/-- A data write answers the same in both machines, with the stack segment replaced. -/
@[simp] theorem withStack_write_data (a : Nat) (b : Byte) :
    (s.withStack cells).mem.write .data a b = (s.mem.write .data a b).map (·.withCells .stack cells) := by
  unfold Memory.write
  cases checkByte .data a <;> rfl

/-! ## Executing an instruction -/

/-- A change of state that commutes with the advancement commutes with the common part of R126. -/
theorem execute_map (f : State → State) (op : Opcode) (L : Byte) (effect : Result State)
    (advances : ∀ u, (f u).advance L = f (u.advance L)) :
    execute op L (effect.map f) = mapNext f (execute op L effect) := by
  unfold execute
  cases checkLength hw.STRICT_LENGTH op.need L with
  | fault e => rfl
  | refused r => rfl
  | next u =>
    cases effect with
    | error e => rfl
    | ok t => exact congrArg Host.Outcome.next (advances t)

theorem effectOf_withStack (op : Opcode) (ops : List Byte) :
    effectOf op ops (s.withStack cells) = (effectOf op ops s).map (State.withStack cells) := by
  cases op with
  | nop => rfl
  | mov =>
    simp only [effectOf, movEffect]
    cases operandsRI ops <;> rfl
  | ldm | add =>
    simp only [effectOf, ldmEffect, addEffect, withStack_read_data]
    cases operandsAR ops with
    | error e => rfl
    | ok p => dsimp only; cases s.mem.read .data p.1.toNat <;> rfl
  | stm =>
    simp only [effectOf, stmEffect, withStack_write_data, withStack_readReg]
    cases operandsAR ops with
    | error e => rfl
    | ok p => dsimp only; cases s.mem.write .data p.1.toNat (lowByte (s.readReg p.2)) <;> rfl

theorem exec_withStack (i : Instr) : exec i (s.withStack cells) = mapNext (State.withStack cells) (exec i s) := by
  rw [← instr_eta i, exec_instr, exec_instr, effectOf_withStack]
  exact execute_map _ _ _ _ fun _ => rfl

/-! ## One turn of each run mode -/

theorem sequentialTurn_withStack :
    sequentialTurn (s.withStack cells) = mapNext (State.withStack cells) (sequentialTurn s) := by
  unfold sequentialTurn
  rw [withStack_decodeAt, withStack_pc]
  cases decodeAt s.mem s.pc.toNat with
  | error e => rfl
  | ok d =>
    cases d with
    | endOfStream => rfl
    | instr i rest => exact exec_withStack cells (s.withRun .sequential) i

theorem scanTurn_withStack (c n : Nat) :
    scanTurn c n (s.withStack cells) = mapNext (State.withStack cells) (scanTurn c n s) := by
  unfold scanTurn
  simp only [withStack_read_code]
  cases s.mem.read .code c with
  | error e => rfl
  | ok b0 =>
    dsimp only
    cases opDecode hw b0 with
    | none => rfl
    | some op => cases op with
      | nop => rfl
      | mov | ldm | stm | add => dsimp only; cases s.mem.read .code (c + 1) <;> rfl

theorem doAction_withStack (left : Nat) (a : Action) :
    doAction left a (s.withStack cells) = mapNext (Prod.map id (State.withStack cells)) (doAction left a s) := by
  cases a with
  | fetchPc | stmReg | addReg | writeReg | advanceRead | advanceWrite => rfl
  | decode p =>
    simp only [doAction, withStack_decodeAt]
    cases decodeAt s.mem p.toNat with
    | error e => rfl
    | ok d =>
      cases d with
      | endOfStream => rfl
      | instr i rest => dsimp only; cases firstAction i <;> rfl
  | ldmData addr r L | addData addr r L =>
    simp only [doAction, withStack_read_data]
    cases s.mem.read .data addr.toNat <;> rfl
  | stmData addr b L =>
    simp only [doAction, withStack_write_data]
    cases s.mem.write .data addr.toNat b <;> rfl

theorem joinTasks_withStack (ts : List Task) :
    joinTasks ts (s.withStack cells) = mapNext (State.withStack cells) (joinTasks ts s) := by
  unfold joinTasks
  rw [withStack_draws]
  cases choose (Config.failurePick s.draws) (taskErrors ts) <;> rfl

theorem tasksTurn_withStack (ts : List Task) :
    tasksTurn ts (s.withStack cells) = mapNext (State.withStack cells) (tasksTurn ts s) := by
  unfold tasksTurn
  rw [withStack_draws]
  cases choose (Config.taskPick s.draws) (liveTasks 0 ts) with
  | none => exact joinTasks_withStack cells s ts
  | some chosen =>
    obtain ⟨k, left, a⟩ := chosen
    dsimp only
    by_cases poisoned : (anyAborted ts && Config.lockPoisoned s.draws) = true
    · rw [if_pos poisoned, if_pos poisoned]
      rfl
    · rw [if_neg poisoned, if_neg poisoned, doAction_withStack]
      cases doAction left a s <;> rfl

/-- A step is the same step in the machine with another stack segment. -/
theorem step_withStack : step (s.withStack cells) = mapNext (State.withStack cells) (step s) := by
  rcases step_cases s with ⟨run, turn⟩ | ⟨c, n, run, turn⟩ | ⟨ts, run, turn⟩ <;> rw [turn]
  · rw [step_of_takesTurn (s := s.withStack cells) run, sequentialTurn_withStack]
  · rw [step_scanning (s := s.withStack cells) run, scanTurn_withStack]
  · rw [step_concurrent (s := s.withStack cells) run, tasksTurn_withStack]

/-- Settles O44. Both halves read `step_withStack` at the outcome of the step. -/
theorem stackIsNeverRead : Obligations.StackIsNeverRead := by
  refine fun s cells => ⟨fun t h => ?_, fun e h => ?_⟩
  · exact (step_withStack cells s).trans (by rw [h]; rfl)
  · exact (step_withStack cells s).trans (by rw [h]; rfl)

end Sys2Proof.Machine
end

section
/-! The step of the sequential loop, and its runs (40_fetch_decode_advance.md R130 to R133; 60_exceptions.md R182). -/

namespace Sys2Proof.Machine

variable {s t h : State} {e : Fault} {fuel : Nat}

/-! ## One step -/

/-- Settles O36. The step is the turn, and the turn ends with the decode's error. -/
theorem stepReportsDecodeErrors : Obligations.StepReportsDecodeErrors := fun _ _ takes failed =>
  (step_of_takesTurn takes).trans (sequentialTurn_of_error failed)

/-- Bytes that stand one by one in a segment stand there as a list. -/
theorem bytes_eq_of_getElem {m : Memory} {g : Segment} {a : Nat} {bs : List Byte}
    (stands : ∀ k b, bs[k]? = some b → m.byte g (a + k) = b) : m.bytes g a bs.length = bs := by
  refine List.ext_getElem (bytes_length m g a _) fun k hk hk' => ?_
  have read : (m.bytes g a bs.length)[k]? = some (m.byte g (a + k)) := bytes_getElem? m g a _ k hk'
  rw [List.getElem?_eq_getElem hk, Option.some.injEq] at read
  rw [read, stands k _ (List.getElem?_eq_getElem hk')]

/-- Settles O34. The bytes stand as a list, so they decode to the instruction, and the turn executes it. -/
theorem stepRunsTheDecodedInstruction : Obligations.StepRunsTheDecodedInstruction := by
  intro s i takes wf hn fits stands
  have size : (encode i).length = i.ops.length + 2 := rfl
  have len : i.ops.length = i.len.toNat := wf
  have decoded := decodeAt_of_bytes len (by omega) (bytes_eq_of_getElem stands)
  rw [if_neg hn, instr_eta] at decoded
  rw [step_of_takesTurn takes, sequentialTurn_of_instr decoded]

/-- PC is at a terminator: a NOP byte inside the code segment. -/
def State.AtTerminator (s : State) : Prop := s.pc.toNat < 16384 ∧ s.mem.byte .code s.pc.toNat = 0x00

theorem decodeAt_of_atTerminator (at0 : s.AtTerminator) : decodeAt s.mem s.pc.toNat = .ok .endOfStream :=
  terminatorEndsStream.1 s.mem _ at0.1 at0.2

/-- At a terminator a step halts and changes nothing else (R131, R140). -/
theorem step_of_atTerminator (takes : s.run.takesTurn = true) (at0 : s.AtTerminator) :
    step s = .next (s.withRun .halted) :=
  (step_of_takesTurn takes).trans (sequentialTurn_of_endOfStream (decodeAt_of_atTerminator at0))

/-- Settles O35. The halted state is at the same terminator, so a second step halts again. -/
theorem nopHaltsTheRun : Obligations.NopHaltsTheRun := by
  refine fun s takes => ⟨fun inside zero => ?_, fun edge => ?_, fun above => ?_⟩
  · have at0 : s.AtTerminator := ⟨inside, zero⟩
    exact ⟨decodeAt_of_atTerminator at0, step_of_atTerminator takes at0,
      step_of_atTerminator (s := s.withRun .halted) rfl at0⟩
  · exact stepReportsDecodeErrors s _ takes (by rw [edge, decodeAt_edge])
  · exact stepReportsDecodeErrors s _ takes (decodeAt_above s.mem _ above)

/-- Settles O37. Every step from a terminator leads to a state at that terminator. -/
theorem haltedMachineIsSafe : Obligations.HaltedMachineIsSafe := by
  intro s takes inside zero k
  have at0 : s.AtTerminator := ⟨inside, zero⟩
  clear inside zero
  induction k generalizing s with
  | zero => exact ⟨s, run_zero s⟩
  | succ k ih =>
    rw [run_succ_of_next k (step_of_atTerminator takes at0)]
    exact ih (s.withRun .halted) rfl at0

/-- A step that halts stood at a terminator and changed nothing but the run field. -/
theorem halted_of_step (takes : s.run.takesTurn = true) (stepped : step s = .next h) (halted : h.run = .halted) :
    s.AtTerminator ∧ h = s.withRun .halted := by
  rw [step_of_takesTurn takes] at stepped
  rcases sequentialTurn_next_cases stepped with ⟨decoded, rfl⟩ | ⟨i, rest, -, executed⟩
  · rcases decodeAt_ok_cases _ _ decoded with ⟨-, inside, tag⟩ | ⟨op, -, -, -, value⟩
    · exact ⟨⟨inside, (opDecode_some_iff _ .nop).mp tag⟩, rfl⟩
    · cases value
  · rw [exec_run executed] at halted
    cases halted

/-! ## One turn of a run under fuel -/

theorem runSequential_of_abort {reason : AbortReason} (fuel : Nat) (turn : sequentialTurn s = .fault (.abort reason)) :
    runSequential (fuel + 1) s = .aborted reason := by simp only [runSequential, turn]

theorem runSequential_of_fault (fuel : Nat) (turn : sequentialTurn s = .fault e) (error : ∀ reason, e ≠ .abort reason) :
    runSequential (fuel + 1) s = .failed e (s.withRun .idle) := by
  cases e with
  | abort reason => exact absurd rfl (error reason)
  | outOfBounds | capacityExceeded | invalidOpcode | invalidRegister | internalFault | lockPoisoned =>
    simp only [runSequential, turn]

theorem runSequential_of_halted (fuel : Nat) (turn : sequentialTurn s = .next t) (halted : t.run = .halted) :
    runSequential (fuel + 1) s = .halted t := by simp only [runSequential, turn, halted, if_true]

theorem runSequential_of_next (fuel : Nat) (turn : sequentialTurn s = .next t) (goesOn : t.run ≠ .halted) :
    runSequential (fuel + 1) s = runSequential fuel t := by simp only [runSequential, turn, if_neg goesOn]

/-! ## Whole runs -/

/-- How a run that has reached `t` ends with the step from there: it halts, fails or aborts. -/
def EndsAt (r : RunEnd) (t : State) : Prop :=
  (∃ h, r = .halted h ∧ step t = .next h ∧ h.run = .halted) ∨
  (∃ e, r = .failed e (t.withRun .idle) ∧ step t = .fault e) ∨
  (∃ reason, r = .aborted reason ∧ step t = .fault (.abort reason))

/-- All a sequential run can do: some steps, each complete and none of them halting, and then the fuel is used up, or
the next step ends the run. -/
theorem runSequential_cases (fuel : Nat) (s : State) (takes : s.run.takesTurn = true) :
    ∃ n t, Sys2Proof.core.run n s = .next t ∧ t.run.takesTurn = true ∧
      ((n = fuel ∧ runSequential fuel s = .outOfFuel t) ∨ (n < fuel ∧ EndsAt (runSequential fuel s) t)) := by
  induction fuel generalizing s with
  | zero => exact ⟨0, s, run_zero s, takes, .inl ⟨rfl, rfl⟩⟩
  | succ fuel ih =>
    have stepped := step_of_takesTurn takes
    cases turn : sequentialTurn s with
    | refused r => exact absurd turn (sequentialTurn_not_refused s r)
    | fault e =>
      refine ⟨0, s, run_zero s, takes, .inr ⟨fuel.succ_pos, .inr ?_⟩⟩
      by_cases abort : ∃ reason, e = .abort reason
      · obtain ⟨reason, rfl⟩ := abort
        exact .inr ⟨reason, runSequential_of_abort fuel turn, stepped.trans turn⟩
      · exact .inl ⟨e, runSequential_of_fault fuel turn (not_exists.mp abort), stepped.trans turn⟩
    | next u =>
      rcases sequentialTurn_run turn with halted | running
      · exact ⟨0, s, run_zero s, takes, .inr ⟨fuel.succ_pos, .inl ⟨u, runSequential_of_halted fuel turn halted,
          stepped.trans turn, halted⟩⟩⟩
      · obtain ⟨n, t, reached, takes', ended⟩ := ih u (by rw [running]; rfl)
        rw [runSequential_of_next fuel turn (by rw [running]; exact Run.noConfusion)]
        refine ⟨n + 1, t, (run_succ_of_next n (stepped.trans turn)).trans reached, takes', ?_⟩
        exact ended.imp (And.imp_left (congrArg Nat.succ)) (And.imp_left Nat.succ_lt_succ)

/-- Settles O38. The last step is the halting one, and only a terminator halts. -/
theorem haltedRunStopsAtNop : Obligations.HaltedRunStopsAtNop := by
  intro fuel s t takes ends
  obtain ⟨n, u, reached, takes', ⟨-, out⟩ | ⟨hn, last⟩⟩ := runSequential_cases fuel s takes
  · rw [ends] at out; cases out
  · rw [ends] at last
    rcases last with ⟨h, same, stepped, halted⟩ | ⟨e, failed, -⟩ | ⟨reason, aborted, -⟩
    · cases same
      obtain ⟨⟨inside, zero⟩, rfl⟩ := halted_of_step takes' stepped halted
      exact ⟨halted, inside, zero, n + 1, hn, (run_add 1 reached).trans (run_succ_of_next 0 stepped)⟩
    · cases failed
    · cases aborted

/-- Settles O39. The state left is the one the failing step was taken in, apart from the run field. -/
theorem failedRunIsPrecise : Obligations.FailedRunIsPrecise := by
  intro fuel s u e takes ends
  obtain ⟨n, t, reached, -, ⟨-, out⟩ | ⟨hn, last⟩⟩ := runSequential_cases fuel s takes
  · rw [ends] at out; cases out
  · rw [ends] at last
    rcases last with ⟨h, halted, -⟩ | ⟨e', same, stepped⟩ | ⟨reason, aborted, -⟩
    · cases halted
    · cases same
      exact ⟨n, t, hn, reached, stepped, fun g a => rfl, fun q _ => rfl⟩
    · cases aborted

/-- Settles O40. By induction on the fuel: both runs take the same turn, and end with it or go on from the same state.
-/
theorem runEndIgnoresMoreFuel : Obligations.RunEndIgnoresMoreFuel := by
  intro fuel more s ended
  induction fuel generalizing s with
  | zero => exact absurd rfl (ended s)
  | succ fuel ih =>
    rw [Nat.add_right_comm fuel 1 more]
    cases turn : sequentialTurn s with
    | refused r => exact absurd turn (sequentialTurn_not_refused s r)
    | fault e =>
      by_cases abort : ∃ reason, e = .abort reason
      · obtain ⟨reason, rfl⟩ := abort
        rw [runSequential_of_abort _ turn, runSequential_of_abort _ turn]
      · rw [runSequential_of_fault _ turn (not_exists.mp abort), runSequential_of_fault _ turn (not_exists.mp abort)]
    | next u =>
      by_cases halted : u.run = .halted
      · rw [runSequential_of_halted _ turn halted, runSequential_of_halted _ turn halted]
      · rw [runSequential_of_next fuel turn halted] at ended ⊢
        rw [runSequential_of_next _ turn halted]
        exact ih u ended

end Sys2Proof.Machine
end

section
/-! The host's ports: refused in a run, and what each does between runs (00_scope.md R10, R11; 20_memory.md R56 to R63).
-/

namespace Sys2Proof.Machine

variable {s t : State}

/-! ## The run entries and the executor port -/

theorem call_of_busy (h : s.run.busy = true) (p : Port) : p.call s = .refused .portDuringRun := by
  simp [Port.call, h]

/-- Between runs the next step is a turn of the sequential loop. -/
theorem takesTurn_of_not_busy {x : Run} (h : x.busy = false) : x.takesTurn = true := by
  cases x with
  | idle | halted | joined => rfl
  | sequential | scanning | concurrent => cases h

/-- A turn of the sequential loop does not look at the run field. -/
theorem sequentialTurn_withRun (s : State) (x : Run) : sequentialTurn (s.withRun x) = sequentialTurn s := rfl

theorem effect_execute_of_next {i : Instr} (h : exec i s = .next t) : (Port.execute i).effect s = .next (t, .unit) := by
  simp only [Port.effect, h]

theorem effect_execute_of_fault {i : Instr} {e : Fault} (h : exec i s = .fault e) :
    (Port.execute i).effect s = .fault e := by simp only [Port.effect, h]

@[simp] theorem effect_decode (s : State) (pc : Nat) :
    (Port.decode pc).effect s = answerRead s .decoded (decodeAt s.mem pc) := rfl

@[simp] theorem answerRead_ok {α : Type} (s : State) (wrap : α → Answer) (x : α) :
    answerRead s wrap (.ok x) = .next (s, wrap x) := rfl
@[simp] theorem answerRead_error {α : Type} (s : State) (wrap : α → Answer) (e : Fault) :
    answerRead s wrap (.error e) = .fault e := rfl
@[simp] theorem answerWrite_error (s : State) (e : Fault) : answerWrite s (.error e) = .fault e := rfl

/-- Settles O47. A call is refused exactly in a run; between runs it is the port's effect. -/
theorem portsRefusedDuringRun : Obligations.PortsRefusedDuringRun := by
  refine fun s => ⟨fun p busy => call_of_busy busy p, fun p idle => call_of_not_busy idle p, fun idle => ?_⟩
  have call := call_of_not_busy idle
  refine ⟨call _, fun pc d decoded => ?_, fun pc e failed => ?_, fun i t executed => ?_, fun i e failed => ?_, ?_⟩
  · rw [call, effect_decode, decoded, answerRead_ok]
  · rw [call, effect_decode, failed, answerRead_error]
  · rw [call, effect_execute_of_next executed]
  · rw [call, effect_execute_of_fault failed]
  · refine ⟨s.withRun .sequential, call _, rfl, rfl, rfl, ?_⟩
    rw [step_of_takesTurn rfl, sequentialTurn_withRun, step_of_takesTurn (takesTurn_of_not_busy idle)]

/-! ## The memory ports -/

@[simp] theorem effect_readPort (s : State) (g : Segment) (a : Nat) :
    (g.readPort a).effect s = answerRead s .byte (s.mem.read g a) := by cases g <;> rfl

@[simp] theorem effect_writePort (s : State) (g : Segment) (a : Nat) (b : Byte) :
    (g.writePort a b).effect s = answerWrite s (s.mem.write g a b) := by cases g <;> rfl

@[simp] theorem effect_writeDataSlice (s : State) (bytes : List Byte) (a : Nat) :
    (Port.writeDataSlice bytes a).effect s = answerWrite s (s.mem.writeDataSlice bytes a) := rfl

@[simp] theorem effect_readCodeSlice (s : State) (a n : Nat) :
    (Port.readCodeSlice a n).effect s = answerRead s .bytes (s.mem.readCodeSlice a n) := rfl

@[simp] theorem effect_readUnified (s : State) (a : Nat) :
    (Port.readUnified a).effect s = answerRead s .byte (s.mem.readUnified a) := rfl

theorem effect_loadCode_ok {a n : Nat} {bytes : List Byte} {m : Memory} (h : s.mem.loadCode a bytes = .ok (m, n)) :
    (Port.loadCode a bytes).effect s = .next (s.withMem m, .count n) := by simp only [Port.effect, h]

theorem effect_loadCode_error {a : Nat} {bytes : List Byte} {e : Fault} (h : s.mem.loadCode a bytes = .error e) :
    (Port.loadCode a bytes).effect s = .fault e := by simp only [Port.effect, h, raise]

variable (idle : s.run.busy = false)
include idle

/-- The single-byte ports of a segment, below its capacity, at it and above it (R56, R57). -/
theorem bytePorts (g : Segment) (a : Nat) (b : Byte) :
    (a < g.cap → (g.readPort a).call s = .next (s, .byte (s.mem.byte g a)) ∧
      ∃ t, (g.writePort a b).call s = .next (t, .unit) ∧ t.mem.read g a = .ok b ∧
        (∀ g' c, ¬(g' = g ∧ c = a) → t.mem.read g' c = s.mem.read g' c) ∧
        t.regs = s.regs ∧ t.run = s.run ∧ t.draws = s.draws) ∧
    (a = g.cap → (g.readPort a).call s = .fault (.abort .edgeAccess) ∧
      (g.writePort a b).call s = .fault (.abort .edgeAccess)) ∧
    (g.cap < a → (g.readPort a).call s = .fault .outOfBounds ∧ (g.writePort a b).call s = .fault .outOfBounds) := by
  rw [call_of_not_busy idle, call_of_not_busy idle, effect_readPort, effect_writePort]
  refine ⟨fun below => ?_, ?_, fun above => ?_⟩
  · rw [read_of_lt s.mem g a below, write_of_lt s.mem g a b below]
    exact ⟨rfl, _, rfl, read_setByte_same below, fun g' c => read_setByte_other, rfl, rfl, rfl⟩
  · rintro rfl
    rw [read_edge, write_edge]
    exact ⟨rfl, rfl⟩
  · rw [read_above s.mem g a above, write_above s.mem g a b above]
    exact ⟨rfl, rfl⟩

/-- The port `write_data_slice` (R61). -/
theorem dataSlicePort (a : Nat) (bytes : List Byte) :
    (a + bytes.length ≤ 8192 → ∃ t, (Port.writeDataSlice bytes a).call s = .next (t, .unit) ∧
      (∀ k b, bytes[k]? = some b → t.mem.read .data (a + k) = .ok b) ∧
      (∀ g c, ¬(g = .data ∧ a ≤ c ∧ c < a + bytes.length) → t.mem.read g c = s.mem.read g c) ∧
      t.regs = s.regs ∧ t.run = s.run ∧ t.draws = s.draws) ∧
    (8192 < a + bytes.length → (Port.writeDataSlice bytes a).call s = .fault .outOfBounds) := by
  rw [call_of_not_busy idle, effect_writeDataSlice]
  refine ⟨fun fits => ?_, fun outside => by rw [writeDataSlice_above s.mem outside, answerWrite_error]⟩
  rw [(writeDataSlice_ok_iff s.mem a).mpr ⟨fits, rfl⟩]
  exact ⟨_, rfl, fun k b stored => read_setBytes_getElem stored fits, fun g c => read_setBytes_other, rfl, rfl, rfl⟩

/-- The port `load_code` (R62). -/
theorem loadCodePort (a : Nat) (bytes : List Byte) :
    (a + bytes.length ≤ 16384 → ∃ t, (Port.loadCode a bytes).call s = .next (t, .count bytes.length) ∧
      (∀ k b, bytes[k]? = some b → t.mem.read .code (a + k) = .ok b) ∧
      (∀ g c, ¬(g = .code ∧ a ≤ c ∧ c < a + bytes.length) → t.mem.read g c = s.mem.read g c) ∧
      t.regs = s.regs ∧ t.run = s.run ∧ t.draws = s.draws) ∧
    (16384 < bytes.length → (Port.loadCode a bytes).call s = .fault .capacityExceeded) ∧
    (bytes.length ≤ 16384 → 16384 < a + bytes.length →
      (Port.loadCode a bytes).call s = .fault (.abort .loadOverrun)) := by
  rw [call_of_not_busy idle]
  refine ⟨fun fits => ?_, fun big => effect_loadCode_error (loadCode_oversize s.mem a big),
    fun size outside => effect_loadCode_error (loadCode_overrun s.mem size outside)⟩
  exact ⟨_, effect_loadCode_ok ((loadCode_ok_iff s.mem a).mpr ⟨fits, rfl, rfl⟩),
    fun k b stored => read_setBytes_getElem stored fits, fun g c => read_setBytes_other, rfl, rfl, rfl⟩

/-- The port `read_code_slice` (R60). -/
theorem codeSlicePort (a n : Nat) :
    (a + n ≤ 16384 → ∃ bs, (Port.readCodeSlice a n).call s = .next (s, .bytes bs) ∧ bs.length = n ∧
      ∀ k, k < n → bs[k]? = some (s.mem.byte .code (a + k))) ∧
    (16384 < a + n → (Port.readCodeSlice a n).call s = .fault .outOfBounds) := by
  rw [call_of_not_busy idle, effect_readCodeSlice]
  refine ⟨fun fits => ?_, fun outside => by rw [readCodeSlice_above s.mem a outside, answerRead_error]⟩
  rw [(readCodeSlice_ok_iff s.mem a).mpr ⟨fits, rfl⟩]
  exact ⟨_, rfl, bytes_length s.mem .code a n, bytes_getElem? s.mem .code a n⟩

/-- The port `read_unified` (R63, R64). -/
theorem unifiedPort (a : Nat) :
    (a < 16384 → (Port.readUnified a).call s = .next (s, .byte (s.mem.byte .code a))) ∧
    (16384 ≤ a → a < 24576 → (Port.readUnified a).call s = .next (s, .byte (s.mem.byte .data (a - 16384)))) ∧
    (24576 ≤ a → a < 65536 → (Port.readUnified a).call s = .next (s, .byte (s.mem.byte .stack (a - 24576)))) ∧
    (65536 ≤ a → (Port.readUnified a).call s = .fault .outOfBounds) := by
  rw [call_of_not_busy idle, effect_readUnified]
  refine ⟨fun code => ?_, fun low high => ?_, fun low high => ?_, fun above => ?_⟩
  · rw [readUnified_code s.mem code, answerRead_ok]
  · rw [readUnified_data s.mem low high, answerRead_ok]
  · rw [readUnified_stack s.mem low high, answerRead_ok]
  · rw [readUnified_above s.mem above, answerRead_error]

omit idle

/-- Settles O60. One lemma per group of ports. -/
theorem hostMemoryPorts : Obligations.HostMemoryPorts := fun _ idle =>
  ⟨bytePorts idle, dataSlicePort idle, loadCodePort idle, codeSlicePort idle, unifiedPort idle⟩

end Sys2Proof.Machine
end

section
/-! The concurrent run mode: the scan (60_exceptions.md R191, R192), the atomic actions of a task (R194 to R197), and
the dispatch phase to its join (R199 to R203). -/

namespace Sys2Proof.Machine

variable {s t u : State} {e : Fault} {ts : List Task} {left : Nat} {a : Action} {x : Task}

/-! ## The scan -/

theorem scanTurn_of_read_error {c : Nat} (n : Nat) (h : s.mem.read .code c = .error e) : scanTurn c n s = .fault e := by
  simp only [scanTurn, h, raise]

theorem scanTurn_of_illegal {c : Nat} (n : Nat) (inside : c < 16384) (tag : opDecode hw (s.mem.byte .code c) = none) :
    scanTurn c n s = .fault .invalidOpcode := by
  simp only [scanTurn, read_of_lt s.mem .code c inside, tag, raise]

/-- After the opcode byte of an instruction the scan's turn reads the length byte, and goes on past the instruction. -/
theorem scanTurn_of_header {c : Nat} {op : Opcode} (n : Nat) (inside : c + 1 < 16384) (hn : op ≠ .nop)
    (tag : opDecode hw (s.mem.byte .code c) = some op) :
    scanTurn c n s = .next (s.withRun (.scanning (c + 2 + (s.mem.byte .code (c + 1)).toNat) (n + 1))) := by
  have opcode := read_of_lt s.mem .code c (show c < 16384 by omega)
  have length := read_of_lt s.mem .code (c + 1) inside
  cases op with
  | nop => exact absurd rfl hn
  | mov | ldm | stm | add => simp only [scanTurn, opcode, tag, length]

/-- An opcode byte in the last place of the segment leaves the length byte at the edge (D5). -/
theorem scanTurn_of_last_header {op : Opcode} (n : Nat) (hn : op ≠ .nop)
    (tag : opDecode hw (s.mem.byte .code 16383) = some op) : scanTurn 16383 n s = .fault (.abort .edgeAccess) := by
  have opcode := read_of_lt s.mem .code 16383 (by decide)
  have length : s.mem.read .code (16383 + 1) = .error (.abort .edgeAccess) := read_edge s.mem .code
  cases op with
  | nop => exact absurd rfl hn
  | mov | ldm | stm | add => simp only [scanTurn, opcode, tag, length, raise]

@[simp] theorem effect_runConcurrent (s : State) :
    Port.runConcurrent.effect s = .next (s.withRun (.scanning s.pc.toNat 0), .unit) := rfl

/-- Settles O48. A step of the scan is `scanTurn`, which has one law per case. -/
theorem scanTurns : Obligations.ScanTurns := by
  refine ⟨fun s idle => by rw [call_of_not_busy idle, effect_runConcurrent], fun s c n scanning => ?_⟩
  rw [step_scanning scanning]
  refine ⟨fun above => scanTurn_of_read_error n (read_above s.mem .code c above), ?edge,
    fun inside illegal => scanTurn_of_illegal n inside illegal,
    fun inside zero => scanTurn_of_terminator n inside (by rw [zero, opDecode_hw_zero]), fun op hn opcode => ?header⟩
  case edge => rintro rfl; exact scanTurn_of_read_error n (read_edge s.mem .code)
  case header =>
    have tag : opDecode hw (s.mem.byte .code c) = some op := (opDecode_some_iff _ _).mpr opcode
    constructor
    · rintro rfl
      exact scanTurn_of_last_header n hn tag
    · exact fun before => scanTurn_of_header n (by omega) hn tag

/-- All a turn of the scan can do: fail, end the scan, or move the cursor by a header at least. -/
theorem scanTurn_cases (c n : Nat) (s : State) :
    (∃ e, scanTurn c n s = .fault e) ∨
    (∃ ts, scanTurn c n s = .next (s.withRun (.concurrent ts))) ∨
    (c < 16384 ∧ ∃ c' n', c + 2 ≤ c' ∧ scanTurn c n s = .next (s.withRun (.scanning c' n'))) := by
  cases turn : scanTurn c n s with
  | fault e => exact .inl ⟨e, rfl⟩
  | refused r => exact absurd turn (scanTurn_not_refused c n s r)
  | next t =>
    obtain ⟨inside, ⟨-, rfl⟩ | ⟨-, rfl⟩⟩ := scanTurn_next_cases turn
    · exact .inr (.inl ⟨_, rfl⟩)
    · exact .inr (.inr ⟨inside, _, _, Nat.le_add_right _ _, rfl⟩)

/-- The cursor gains two bytes a turn at least, so the room above it bounds the turns of the scan. -/
theorem scan_ends_within {c n : Nat} (scanning : s.run = .scanning c n) :
    ∃ k, k ≤ (16385 - c) / 2 + 1 ∧ ((∃ e, Sys2Proof.core.run k s = .fault e) ∨
      ∃ t ts, Sys2Proof.core.run k s = .next t ∧ t.run = .concurrent ts ∧ t.regs = s.regs ∧ t.mem = s.mem) := by
  induction room : 16385 - c using Nat.strong_induction_on generalizing s c n with
  | _ room' ih =>
    have stepped := step_scanning scanning
    rcases scanTurn_cases c n s with ⟨e, turn⟩ | ⟨ts, turn⟩ | ⟨inside, c', n', moved, turn⟩ <;> rw [turn] at stepped
    · exact ⟨1, by omega, .inl ⟨e, run_succ_of_fault 0 stepped⟩⟩
    · exact ⟨1, by omega, .inr ⟨_, ts, run_succ_of_next 0 stepped, rfl, rfl, rfl⟩⟩
    · obtain ⟨k, hk, ended⟩ := ih (16385 - c') (by omega) (s := s.withRun (.scanning c' n')) rfl rfl
      exact ⟨k + 1, by omega, by rw [run_succ_of_next k stepped]; exact ended⟩

/-- Settles O50. The whole segment has room for 8192 headers, and the scan may end at its edge. -/
theorem scanEnds : Obligations.ScanEnds := by
  intro s c n scanning
  obtain ⟨k, hk, ended⟩ := scan_ends_within scanning
  exact ⟨k, by omega, ended⟩

/-! ## The first action of an instruction -/

variable {op : Opcode} {L hi lo rid imm : Byte} {ops rest : List Byte} {r : Reg}

/-- The first action of an instruction once its length is checked, by its opcode. -/
def firstOf : Opcode → Byte → List Byte → Result Action
  | .nop, L, _ => .ok (.advanceRead L)
  | .mov, L, ops => (operandsRI ops).map fun (r, imm) => .writeReg r imm L
  | .ldm, L, ops => (operandsAR ops).map fun (addr, r) => .ldmData addr r L
  | .stm, L, ops => (operandsAR ops).map fun (addr, r) => .stmReg addr r L
  | .add, L, ops => (operandsAR ops).map fun (addr, r) => .addData addr r L

theorem firstAction_instr (op : Opcode) (L : Byte) (ops : List Byte) :
    firstAction (op.instr L ops) = afterCheck op L (firstOf op L ops) := by cases op <;> rfl

/-- A length byte below the operand count aborts in the decode action (30_encoding.md R98). -/
theorem firstAction_of_lt (ops : List Byte) (short : L.toNat < op.need) :
    firstAction (op.instr L ops) = .fault (.abort .shortOperands) :=
  (firstAction_instr op L ops).trans (afterCheck_of_lt short _)

theorem firstAction_of_le (ops : List Byte) (reaches : op.need ≤ L.toNat) :
    firstAction (op.instr L ops) = ofResult (firstOf op L ops) :=
  (firstAction_instr op L ops).trans (afterCheck_of_le reaches _)

theorem firstOf_of_operands_error (L : Byte) (three : op.need = 3) (h : operandsAR ops = .error e) :
    firstOf op L ops = .error e := by
  cases op with
  | nop => cases three
  | mov => cases three
  | ldm | stm | add => rw [firstOf, h]; rfl

/-- The errors the decode action can find in the operands. -/
theorem firstOf_error_cases (h : firstOf op L ops = .error e) : e = .invalidRegister ∨ e = .abort .shortOperands := by
  cases op with
  | nop => cases h
  | mov =>
    cases operands : operandsRI ops with
    | error e' => rw [firstOf, operands] at h; cases h; exact operandsRI_error_cases operands
    | ok p => rw [firstOf, operands] at h; cases h
  | ldm | stm | add =>
    cases operands : operandsAR ops with
    | error e' => rw [firstOf, operands] at h; cases h; exact operandsAR_error_cases operands
    | ok p => rw [firstOf, operands] at h; cases h

/-- The errors the decode action can find once the instruction is decoded: a short length, or its operands. -/
theorem firstAction_fault_cases {i : Instr} (h : firstAction i = .fault e) :
    e = .invalidRegister ∨ e = .abort .shortOperands := by
  rw [← instr_eta i] at h
  by_cases short : i.len.toNat < i.opcode.need
  · rw [firstAction_of_lt _ short] at h
    cases h
    exact .inr rfl
  · rw [firstAction_of_le _ (Nat.le_of_not_lt short)] at h
    cases first : firstOf i.opcode i.len i.ops with
    | error e' => rw [first] at h; cases h; exact firstOf_error_cases first
    | ok f => rw [first] at h; cases h

/-! ## The further actions -/

variable {p addr : Word} {b : Byte}

theorem doAction_decode_error (left : Nat) (h : decodeAt s.mem p.toNat = .error e) :
    doAction left (.decode p) s = .next (.failed (taskFault e), s) := by simp only [doAction, h]

theorem doAction_decode_endOfStream (left : Nat) (h : decodeAt s.mem p.toNat = .ok .endOfStream) :
    doAction left (.decode p) s = .next (.returned, s) := by simp only [doAction, h]

theorem doAction_decode_next {i : Instr} (left : Nat) (h : decodeAt s.mem p.toNat = .ok (.instr i rest))
    (first : firstAction i = .next a) : doAction left (.decode p) s = .next (.live left a, s) := by
  simp only [doAction, h, first]

theorem doAction_decode_fault {i : Instr} (left : Nat) (h : decodeAt s.mem p.toNat = .ok (.instr i rest))
    (first : firstAction i = .fault e) : doAction left (.decode p) s = .next (.failed (taskFault e), s) := by
  simp only [doAction, h, first]

theorem doAction_ldmData (left : Nat) (r : Reg) (L : Byte) (s : State) (below : addr.toNat < 8192) :
    doAction left (.ldmData addr r L) s =
      .next (.live left (.writeReg r (zext16 (s.mem.byte .data addr.toNat)) L), s) := by
  simp only [doAction, read_of_lt s.mem .data _ below]

theorem doAction_addData (left : Nat) (r : Reg) (L : Byte) (s : State) (below : addr.toNat < 8192) :
    doAction left (.addData addr r L) s = .next (.live left (.addReg (s.mem.byte .data addr.toNat) r L), s) := by
  simp only [doAction, read_of_lt s.mem .data _ below]

theorem doAction_stmData (left : Nat) (b L : Byte) (s : State) (below : addr.toNat < 8192) :
    doAction left (.stmData addr b L) s =
      .next (.live left (.advanceRead L), s.withMem (s.mem.setByte .data addr.toNat b)) := by
  simp only [doAction, write_of_lt s.mem .data _ _ below]

/-- A data access that fails its check stops the task, whichever action makes it. -/
theorem doAction_of_check_error (left : Nat) (r : Reg) (b L : Byte) (s : State)
    (bad : checkByte .data addr.toNat = .error e) :
    doAction left (.ldmData addr r L) s = .next (.failed (taskFault e), s) ∧
    doAction left (.stmData addr b L) s = .next (.failed (taskFault e), s) ∧
    doAction left (.addData addr r L) s = .next (.failed (taskFault e), s) := by
  simp only [doAction, Memory.read, Memory.write, bad, and_self]

/-- Settles O51. One law per action; the operands of a first action are those of `operandsRI` and `operandsAR`. -/
theorem atomicActions : Obligations.AtomicActions := by
  refine ⟨fun L ops => firstAction_of_le (op := .nop) ops (Nat.zero_le _),
    fun L rid imm rest r reaches slot => (firstAction_of_le (op := .mov) _ reaches).trans ?mov,
    fun L hi lo rid rest r reaches slot => ⟨(firstAction_of_le (op := .ldm) _ reaches).trans ?ldm,
      (firstAction_of_le (op := .stm) _ reaches).trans ?stm, (firstAction_of_le (op := .add) _ reaches).trans ?add⟩,
    fun s left p addr v r L b => ⟨rfl, doAction_decode_endOfStream left, fun i rest a => doAction_decode_next left,
      fun below => ⟨doAction_ldmData left r L s below, doAction_stmData left b L s below,
        doAction_addData left r L s below⟩, rfl, rfl, rfl, rfl, fun more => ?again, rfl⟩⟩
  case mov => rw [firstOf, operandsRI_of_slot imm rest slot]; rfl
  case ldm => rw [firstOf, operandsAR_of_slot hi lo rest slot]; rfl
  case stm => rw [firstOf, operandsAR_of_slot hi lo rest slot]; rfl
  case add => rw [firstOf, operandsAR_of_slot hi lo rest slot]; rfl
  case again => rw [doAction, if_neg (Nat.not_le.mpr more)]

/-! ## What a task that stops reports (R201, R202) -/

theorem taskFault_of_error (h : ∀ reason, e ≠ .abort reason) : taskFault e = e := by
  cases e with
  | abort reason => exact absurd rfl (h reason)
  | outOfBounds | capacityExceeded | invalidOpcode | invalidRegister | internalFault | lockPoisoned => rfl

/-- Every decoded instruction carries as many operand bytes as its length byte says (00_scope.md R12). -/
theorem wf_of_decodeAt {m : Memory} {pc : Nat} {i : Instr} (h : decodeAt m pc = .ok (.instr i rest)) :
    i.ops.length = i.len.toNat := by
  rcases decodeAt_ok_cases m pc h with ⟨stream, -, -⟩ | ⟨op, -, -, -, value⟩
  · cases stream
  · cases value
    rw [instr_ops, instr_len, bytes_length]

/-- A decoded instruction that accesses data and has an invalid register byte fails with `InvalidRegister`: its payload
is as long as its length byte says, so the length check has passed. -/
theorem doAction_decode_invalid {n : Byte} (left : Nat) (three : op.need = 3)
    (decoded : decodeAt s.mem p.toNat = .ok (.instr (op.instr n (hi :: lo :: rid :: ops)) rest)) (h : 10 ≤ rid.toNat) :
    doAction left (.decode p) s = .next (.failed .invalidRegister, s) := by
  have payload := wf_of_decodeAt decoded
  rw [instr_ops, instr_len, List.length_cons, List.length_cons, List.length_cons] at payload
  refine doAction_decode_fault (e := .invalidRegister) left decoded ?_
  rw [firstAction_of_le _ (by omega), firstOf_of_operands_error n three (operandsAR_of_invalid hi lo ops h)]
  rfl

/-- The same for a decoded MOV. -/
theorem doAction_decode_invalid_mov {n : Byte} (left : Nat)
    (decoded : decodeAt s.mem p.toNat = .ok (.instr (.mov n (rid :: imm :: ops)) rest)) (h : 10 ≤ rid.toNat) :
    doAction left (.decode p) s = .next (.failed .invalidRegister, s) := by
  have reaches : 2 ≤ n.toNat := (wf_of_decodeAt decoded) ▸ Nat.le_add_left 2 ops.length
  refine doAction_decode_fault (e := .invalidRegister) left decoded ?_
  refine (firstAction_of_le (op := .mov) _ reaches).trans ?_
  rw [firstOf, operandsRI_of_invalid imm ops h]
  rfl

/-- Settles O55. Each failing action reports `taskFault` of its error. -/
theorem abortedTaskIsInternalFault : Obligations.AbortedTaskIsInternalFault := by
  refine ⟨fun _ => rfl, fun e => taskFault_of_error, fun s left p addr r b L =>
    ⟨fun reason => doAction_decode_error left, fun e failed error => ⟨?kind, ?value⟩,
      fun i rest decoded short => ?short,
      fun n rid imm ops rest => doAction_decode_invalid_mov left, fun n hi lo rid ops rest invalid decoded => ?access,
      fun edge => doAction_of_check_error left r b L s (checkByte_edge edge),
      fun above => doAction_of_check_error left r b L s (checkByte_above above)⟩⟩
  case kind =>
    rcases decodeAt_error_cases failed with bounds | opcode | edge
    · exact .inl bounds
    · exact .inr opcode
    · exact absurd edge (error _)
  case value => rw [doAction_decode_error left failed, taskFault_of_error error]
  case short =>
    refine doAction_decode_fault (e := .abort .shortOperands) left decoded ?_
    rw [← instr_eta i, firstAction_of_lt _ short]
  case access =>
    rcases decoded with ldm | stm | add
    · exact doAction_decode_invalid (op := .ldm) left rfl ldm invalid
    · exact doAction_decode_invalid (op := .stm) left rfl stm invalid
    · exact doAction_decode_invalid (op := .add) left rfl add invalid

/-- What a task reports of the errors that its actions can meet. -/
theorem taskFault_cases (h : e = .outOfBounds ∨ e = .invalidOpcode ∨ e = .invalidRegister ∨ e = .abort .edgeAccess ∨
    e = .abort .shortOperands) :
    taskFault e = .outOfBounds ∨ taskFault e = .invalidOpcode ∨ taskFault e = .invalidRegister ∨
      taskFault e = .internalFault := by
  rcases h with rfl | rfl | rfl | rfl | rfl <;> decide

/-- All a task can fail with by its own action. -/
theorem doAction_failed_cases (h : doAction left a s = .next (.failed e, u)) :
    e = .outOfBounds ∨ e = .invalidOpcode ∨ e = .invalidRegister ∨ e = .internalFault := by
  cases a with
  | fetchPc | stmReg | addReg | writeReg | advanceRead => cases h
  | advanceWrite v =>
    simp only [doAction, Host.Outcome.next.injEq, Prod.mk.injEq] at h
    obtain ⟨task, -⟩ := h
    split at task <;> cases task
  | decode p =>
    simp only [doAction] at h
    split at h
    · next failed => cases h; exact taskFault_cases (by have := decodeAt_error_cases failed; tauto)
    · cases h
    · split at h
      · next first => cases h; exact taskFault_cases (by have := firstAction_fault_cases first; tauto)
      · cases h
      · cases h
  | ldmData addr r L | addData addr r L =>
    simp only [doAction] at h
    split at h
    · next failed => cases h; exact taskFault_cases (by have := read_error_cases failed; tauto)
    · cases h
  | stmData addr b L =>
    simp only [doAction] at h
    split at h
    · next failed => cases h; exact taskFault_cases (by have := write_error_cases failed; tauto)
    · cases h

/-! ## A turn of the dispatch phase, by the schedule's choice -/

/-- With a task chosen, the turn does that task's next action, or finds its lock poisoned after an abort (R199, R203).
-/
theorem tasksTurn_of_choose {k : Nat} (chosen : choose (Config.taskPick s.draws) (liveTasks 0 ts) = some (k, left, a)) :
    ts[k]? = some (.live left a) ∧ ∃ x u, tasksTurn ts s = .next ((u.withRun (.concurrent (ts.set k x))).drawn) ∧
      (doAction left a s = .next (x, u) ∨ (x = .failed .lockPoisoned ∧ .failed .internalFault ∈ ts ∧ u = s)) := by
  refine ⟨by simpa using (mem_liveTasks.mp (choose_mem chosen)).2, ?_⟩
  simp only [tasksTurn, chosen]
  split
  · next poisoned =>
    exact ⟨_, s, rfl, .inr ⟨rfl, anyAborted_iff.mp (Bool.and_eq_true_iff.mp poisoned).1, rfl⟩⟩
  · obtain ⟨x, u, done, -⟩ := doAction_cases left a s
    rw [done]
    exact ⟨x, u, rfl, .inl rfl⟩

/-- All one atomic action can write, by the action (R196). -/
theorem doAction_shared (h : doAction left a s = .next (x, u)) :
    u = s ∨ (∃ r v L, a = .writeReg r v L ∧ u = s.writeReg r v) ∨ (∃ v, a = .advanceWrite v ∧ u = s.writeReg Reg.PC v) ∨
    (∃ addr b L, a = .stmData addr b L ∧ u = s.withMem (s.mem.setByte .data addr.toNat b)) := by
  cases a with
  | fetchPc | stmReg | addReg | advanceRead => cases h; exact .inl rfl
  | writeReg r v L => cases h; exact .inr (.inl ⟨r, v, L, rfl, rfl⟩)
  | advanceWrite v => cases h; exact .inr (.inr (.inl ⟨v, rfl, rfl⟩))
  | decode p =>
    simp only [doAction] at h
    split at h
    · cases h; exact .inl rfl
    · cases h; exact .inl rfl
    · split at h
      · cases h; exact .inl rfl
      · cases h
      · cases h; exact .inl rfl
  | ldmData addr r L | addData addr r L =>
    simp only [doAction] at h
    split at h <;> cases h <;> exact .inl rfl
  | stmData addr b L =>
    simp only [doAction] at h
    split at h
    · cases h; exact .inl rfl
    · next m write =>
      cases h
      obtain ⟨-, rfl⟩ := (write_ok_iff _ _ _ _).mp write
      exact .inr (.inr (.inr ⟨addr, b, L, rfl, rfl⟩))

/-- Settles O52. The turn does the chosen task's action, and `doAction_shared` says what that action can write. -/
theorem oneWritePerAtomicAction : Obligations.OneWritePerAtomicAction := by
  intro s ts k left a run chosen
  obtain ⟨live, x, u, turn, done⟩ := tasksTurn_of_choose chosen
  have shared := done.elim doAction_shared fun ⟨_, _, same⟩ => .inl same
  refine ⟨_, x, (step_concurrent run).trans turn, live, rfl, ?outcome, ?memory, ?registers⟩
  case outcome =>
    rcases done with done | ⟨poisoned, aborted, rfl⟩
    · exact .inl ⟨u, done, rfl, rfl⟩
    · exact .inr ⟨poisoned, aborted, rfl, rfl⟩
  case memory =>
    intro g c other
    rcases shared with rfl | ⟨r, v, L, -, rfl⟩ | ⟨v, -, rfl⟩ | ⟨addr, b, L, rfl, rfl⟩
    · rfl
    · rfl
    · rfl
    · exact read_setByte_other (other addr b L rfl)
  case registers =>
    intro q notDestination notPc
    rcases shared with rfl | ⟨r, v, L, rfl, rfl⟩ | ⟨v, rfl, rfl⟩ | ⟨addr, b, L, -, rfl⟩
    · rfl
    · exact readReg_writeReg_ne s r q v (notDestination r v L rfl)
    · exact readReg_writeReg_ne s Reg.PC q v (notPc v rfl)
    · rfl

/-- While a task is unfinished the schedule chooses one (R199). -/
theorem exists_choose (unfinished : ∃ y ∈ ts, ¬y.finished) (pick : Nat) :
    ∃ k left a, choose pick (liveTasks 0 ts) = some (k, left, a) := by
  cases chosen : choose pick (liveTasks 0 ts) with
  | none =>
    obtain ⟨y, hy, hn⟩ := unfinished
    exact absurd (liveTasks_eq_nil_iff.mp (choose_eq_none_iff.mp chosen) y hy) hn
  | some c => exact ⟨c.1, c.2.1, c.2.2, rfl⟩

/-- Settles O53. The turn puts one task back in the place of the chosen one, which was unfinished. -/
theorem failureStopsOnlyItsTask : Obligations.FailureStopsOnlyItsTask := by
  intro s ts run unfinished
  obtain ⟨k, left, a, chosen⟩ := exists_choose unfinished (Config.taskPick s.draws)
  obtain ⟨live, x, u, turn, -⟩ := tasksTurn_of_choose chosen
  have others (j : Nat) (hj : j ≠ k) : (ts.set k x)[j]? = ts[j]? := List.getElem?_set_ne hj.symm
  refine ⟨_, ts.set k x, k, left, a, (step_concurrent run).trans turn, rfl, List.length_set, chosen, live, others,
    fun j y hy finished => ?_⟩
  rw [others j, hy]
  rintro rfl
  rw [live] at hy
  cases hy
  exact finished

/-- Settles O54. With every task finished the turn is the join. -/
theorem joinReportsSomeFailure : Obligations.JoinReportsSomeFailure := by
  intro s ts run finished
  rw [step_concurrent run, tasksTurn_of_finished s finished]
  refine ⟨joinTasks_of_no_failure s, fun ⟨e, failed⟩ => ?_⟩
  rcases joinTasks_cases ts s with ⟨succeeded, -⟩ | reported
  · exact absurd failed (succeeded e)
  · exact reported

/-- Settles O56. A task newly failed with `LockPoisoned` did not fail by an action of its own, so the turn found its
lock poisoned. -/
theorem poisonNeedsAnAbort : Obligations.PoisonNeedsAnAbort := by
  intro s t ts ts' run stepped run' poisoned
  rw [step_concurrent run] at stepped
  rcases tasksTurn_next_cases stepped with rfl | ⟨k, left, a, x, u, -, done, rfl⟩
  · cases run'
  · cases run'
    rcases List.mem_or_eq_of_mem_set poisoned with old | rfl
    · exact .inl old
    · rcases done with done | ⟨aborted, -, -⟩
      · exact absurd (doAction_failed_cases done) (by decide)
      · exact .inr aborted

/-! ## The dispatch phase ends (R200) -/

/-- How many actions the unfinished tasks have left at most. -/
def totalRank (ts : List Task) : Nat := (ts.map Task.rank).sum

theorem totalRank_set_lt {k : Nat} {y : Task} (h : ts[k]? = some y) (less : x.rank < y.rank) :
    totalRank (ts.set k x) < totalRank ts := by
  induction ts generalizing k with
  | nil => cases h
  | cons z ts ih =>
    cases k with
    | zero =>
      cases h
      exact Nat.add_lt_add_right less _
    | succ k => exact Nat.add_lt_add_left (ih h) _

theorem rank_live_pos (left : Nat) (a : Action) : 0 < (Task.live left a).rank := by
  cases a <;> simp only [Task.rank, Action.rank] <;> omega

theorem rank_le_of_wf {y : Task} (wf : y.wf) : y.rank ≤ 70 := by
  cases y with
  | live left a =>
    obtain ⟨-, bounded⟩ := wf
    rw [hw_BATCH] at bounded
    have action : a.rank ≤ 7 := by cases a <;> simp [Action.rank]
    simp only [Task.rank]
    omega
  | returned => decide
  | failed e => exact Nat.zero_le 70

theorem totalRank_le (wf : ∀ y ∈ ts, y.wf) : totalRank ts ≤ 70 * ts.length := by
  have bounded : ∀ n ∈ ts.map Task.rank, n ≤ 70 := fun n hn => by
    obtain ⟨y, hy, rfl⟩ := List.mem_map.mp hn
    exact rank_le_of_wf (wf y hy)
  calc totalRank ts ≤ (ts.map Task.rank).length • 70 := List.sum_le_card_nsmul _ _ bounded
    _ = 70 * ts.length := by rw [List.length_map, smul_eq_mul, Nat.mul_comm]

/-- With a task unfinished a step of the dispatch phase leaves the tasks fewer actions (R200). -/
theorem step_totalRank_lt (run : s.run = .concurrent ts) (unfinished : ∃ y ∈ ts, ¬y.finished) :
    ∃ t ts', step s = .next t ∧ t.run = .concurrent ts' ∧ totalRank ts' < totalRank ts := by
  obtain ⟨k, left, a, chosen⟩ := exists_choose unfinished (Config.taskPick s.draws)
  obtain ⟨live, x, u, turn, done⟩ := tasksTurn_of_choose chosen
  refine ⟨_, ts.set k x, (step_concurrent run).trans turn, rfl, totalRank_set_lt live ?_⟩
  rcases done with done | ⟨rfl, -, -⟩
  · obtain ⟨x', u', done', -, -, less⟩ := doAction_cases left a s
    obtain ⟨rfl, -⟩ := Prod.mk.inj (Host.Outcome.next.inj (done'.symm.trans done))
    exact less
  · exact rank_live_pos left a

/-- With every task finished the next step returns: with `()`, or with an error. -/
theorem step_of_finished (run : s.run = .concurrent ts) (finished : ∀ y ∈ ts, y.finished) :
    step s = .next (s.withRun .joined) ∨ ∃ e, step s = .fault e := by
  rw [step_concurrent run, tasksTurn_of_finished s finished]
  exact (joinTasks_cases ts s).imp And.right fun ⟨e, _, failed⟩ => ⟨e, failed⟩

/-- The dispatch phase returns within as many steps as its tasks have actions left, and the join. -/
theorem returns_within (run : s.run = .concurrent ts) :
    ∃ k, k ≤ totalRank ts + 1 ∧
      ((∃ t, Sys2Proof.core.run k s = .next t ∧ t.run = .joined) ∨ ∃ e, Sys2Proof.core.run k s = .fault e) := by
  induction actions : totalRank ts using Nat.strong_induction_on generalizing s ts with
  | _ n ih =>
    by_cases finished : ∀ y ∈ ts, y.finished
    · rcases step_of_finished run finished with joined | ⟨e, failed⟩
      · exact ⟨1, by omega, .inl ⟨_, run_succ_of_next 0 joined, rfl⟩⟩
      · exact ⟨1, by omega, .inr ⟨e, run_succ_of_fault 0 failed⟩⟩
    · obtain ⟨t, ts', stepped, run', less⟩ := step_totalRank_lt run (by simpa using finished)
      obtain ⟨k, hk, ended⟩ := ih (totalRank ts') (by omega) run' rfl
      exact ⟨k + 1, by omega, by rw [run_succ_of_next k stepped]; exact ended⟩

/-- Settles O57. Seven actions an iteration and ten iterations a task bound the actions left. -/
theorem concurrentRunReturns : Obligations.ConcurrentRunReturns := by
  intro s ts run wf
  obtain ⟨k, hk, ended⟩ := returns_within run
  exact ⟨k, hk.trans (Nat.succ_le_succ (totalRank_le wf)), ended⟩

end Sys2Proof.Machine
end

section
/-! One concurrent task runs as sequential mode would (60_exceptions.md R199). A task's own actions are followed apart
from the run field and the draws, which no action looks at; an instruction's effect is then the effect of its actions in
order. -/

namespace Sys2Proof.Machine

variable {s t u : State} {x y z : Task} {left k j : Nat} {a : Action} {e : Fault}

/-! ## The actions of one task -/

/-- Within `k` of its own actions a task in one state becomes another task in another state. -/
inductive TaskWithin : Nat → Task → State → Task → State → Prop where
  | stay (k : Nat) (x : Task) (s : State) : TaskWithin k x s x s
  | act {k left : Nat} {a : Action} {x y : Task} {s t u : State} :
      doAction left a s = .next (x, t) → TaskWithin k x t y u → TaskWithin (k + 1) (.live left a) s y u

namespace TaskWithin

theorem mono (h : TaskWithin k x s y t) (le : k ≤ j) : TaskWithin j x s y t := by
  induction h generalizing j with
  | stay k x s => exact .stay j x s
  | act done _ ih =>
    obtain ⟨j', rfl⟩ : ∃ j', j = j' + 1 := ⟨j - 1, by omega⟩
    exact .act done (ih (by omega))

theorem trans (h : TaskWithin j x s y t) (h' : TaskWithin k y t z u) : TaskWithin (k + j) x s z u := by
  induction h with
  | stay j x s => exact h'.mono (Nat.le_add_right k j)
  | act done _ ih => exact .act done (ih h')

/-- One action that brings the task to its last form. -/
theorem last (h : doAction left a s = .next (x, t)) : TaskWithin 1 (.live left a) s x t := .act h (.stay 0 x t)

end TaskWithin

/-! ## One task as the whole dispatch phase -/

/-- The machine in a dispatch phase of one task, after so many draws. -/
def State.asTask (x : Task) (d : Nat) (s : State) : State := { s with run := .concurrent [x], draws := d }

/-- No action looks at the run field or the draws. -/
theorem doAction_asTask (left : Nat) (a : Action) (s : State) (x : Task) (d : Nat) :
    doAction left a (s.asTask x d) = mapNext (Prod.map id (State.asTask x d)) (doAction left a s) := by
  have mem : (s.asTask x d).mem = s.mem := rfl
  cases a with
  | fetchPc | stmReg | addReg | writeReg | advanceRead | advanceWrite => rfl
  | decode p =>
    simp only [doAction, mem]
    cases decodeAt s.mem p.toNat with
    | error e => rfl
    | ok decoded =>
      cases decoded with
      | endOfStream => rfl
      | instr i rest => dsimp only; cases firstAction i <;> rfl
  | ldmData addr r L | addData addr r L =>
    simp only [doAction, mem]
    cases s.mem.read .data addr.toNat <;> rfl
  | stmData addr b L =>
    simp only [doAction, mem]
    cases s.mem.write .data addr.toNat b <;> rfl

/-- With one task the step is that task's next action, whatever the free choices. -/
theorem step_asTask (d : Nat) (h : doAction left a s = .next (x, t)) :
    step (s.asTask (.live left a) d) = .next (t.asTask x (d + 1)) := by
  obtain ⟨-, x', u, turn, done | ⟨-, aborted, -⟩⟩ :=
    tasksTurn_of_choose (s := s.asTask (.live left a) d) (ts := [.live left a]) (k := 0) rfl
  · rw [doAction_asTask, h] at done
    obtain ⟨rfl, rfl⟩ := Prod.mk.inj (Host.Outcome.next.inj done)
    exact turn
  · simp at aborted

/-- What a task reaches by its own actions the machine reaches by as many steps. -/
theorem run_of_taskWithin (h : TaskWithin k x s y t) (d : Nat) :
    ∃ n d', n ≤ k ∧ Sys2Proof.core.run n (s.asTask x d) = .next (t.asTask y d') := by
  induction h generalizing d with
  | stay k x s => exact ⟨0, d, Nat.zero_le k, rfl⟩
  | act done _ ih =>
    obtain ⟨n, d', hn, reached⟩ := ih (d + 1)
    exact ⟨n + 1, d', Nat.succ_le_succ hn, (run_succ_of_next n (step_asTask d done)).trans reached⟩

/-! ## The actions of one instruction -/

/-- What becomes of a task when an iteration is complete (R194). -/
def afterIteration (left : Nat) : Task := if left ≤ 1 then .returned else .live (left - 1) .fetchPc

/-- The advancement in its two actions. -/
theorem advance_within (left : Nat) (L : Byte) (s : State) :
    TaskWithin 2 (.live left (.advanceRead L)) s (afterIteration left) (s.advance L) :=
  .act rfl (.last rfl)

/-- Writing a register in its action. -/
theorem writeReg_within (left : Nat) (r : Reg) (v : Word) (L : Byte) (s : State) :
    TaskWithin 1 (.live left (.writeReg r v L)) s (.live left (.advanceRead L)) (s.writeReg r v) := .last rfl

/-- How an instruction's effect and its actions from the first one on agree: they fail alike and leave the state as it
was, or they reach the advancement in the effect's state. -/
def ActsAs (left : Nat) (L : Byte) (a : Action) (s : State) : Result State → Prop
  | .error e => TaskWithin 3 (.live left a) s (.failed (taskFault e)) s
  | .ok u => TaskWithin 3 (.live left a) s (.live left (.advanceRead L)) u

variable {op : Opcode} {L : Byte} {ops : List Byte}

/-- The first action and the effect of an instruction fail on the same operands. -/
theorem effectOf_of_firstOf_error (s : State) (h : firstOf op L ops = .error e) : effectOf op ops s = .error e := by
  cases op with
  | nop => cases h
  | mov =>
    cases operands : operandsRI ops with
    | error e' => rw [firstOf, operands] at h; cases h; simp only [effectOf, movEffect, operands]
    | ok p => rw [firstOf, operands] at h; cases h
  | ldm | stm | add =>
    cases operands : operandsAR ops with
    | error e' => rw [firstOf, operands] at h; cases h; exact effectOf_of_operands_error s rfl operands
    | ok p => rw [firstOf, operands] at h; cases h

/-- The actions of an instruction from its first one on have the instruction's effect. -/
theorem actsAs_effectOf (left : Nat) (s : State) (h : firstOf op L ops = .ok a) :
    ActsAs left L a s (effectOf op ops s) := by
  cases op with
  | nop => cases h; exact .stay 3 _ s
  | mov =>
    cases operands : operandsRI ops with
    | error e => rw [firstOf, operands] at h; cases h
    | ok p =>
      rw [firstOf, operands] at h
      cases h
      simp only [effectOf, movEffect, operands]
      exact (writeReg_within left p.1 p.2 L s).mono (by decide)
  | ldm =>
    cases operands : operandsAR ops with
    | error e => rw [firstOf, operands] at h; cases h
    | ok p =>
      rw [firstOf, operands] at h
      cases h
      simp only [effectOf, ldmEffect, operands]
      cases read : s.mem.read .data p.1.toNat with
      | error e => exact (TaskWithin.last (by simp only [doAction, read])).mono (by decide)
      | ok b =>
        exact (TaskWithin.act (by simp only [doAction, read]) (writeReg_within left p.2 _ L s)).mono (by decide)
  | stm =>
    cases operands : operandsAR ops with
    | error e => rw [firstOf, operands] at h; cases h
    | ok p =>
      rw [firstOf, operands] at h
      cases h
      simp only [effectOf, stmEffect, operands]
      cases write : s.mem.write .data p.1.toNat (lowByte (s.readReg p.2)) with
      | error e => exact (TaskWithin.act rfl (.last (by simp only [doAction, write]))).mono (by decide)
      | ok m => exact (TaskWithin.act rfl (.last (by simp only [doAction, write]))).mono (by decide)
  | add =>
    cases operands : operandsAR ops with
    | error e => rw [firstOf, operands] at h; cases h
    | ok p =>
      rw [firstOf, operands] at h
      cases h
      simp only [effectOf, addEffect, operands]
      cases read : s.mem.read .data p.1.toNat with
      | error e => exact (TaskWithin.last (by simp only [doAction, read])).mono (by decide)
      | ok b =>
        have sum : doAction left (.addReg b p.2 L) s =
            .next (.live left (.writeReg p.2 (addByte (s.readReg p.2) b) L), s) := rfl
        exact .act (by simp only [doAction, read]) (.act sum (writeReg_within left p.2 _ L s))

/-- An instruction that completes: its actions, the advancement included, reach the executor's state. -/
theorem exec_next_within {i : Instr} (left : Nat) (h : exec i s = .next t) :
    ∃ a, firstAction i = .next a ∧ TaskWithin 5 (.live left a) s (afterIteration left) t := by
  rw [← instr_eta i, exec_instr] at h
  obtain ⟨reaches, u, effect, rfl⟩ := (execute_next_iff _ _ _ _).mp h
  rw [← instr_eta i, firstAction_of_le _ reaches, instr_len]
  cases first : firstOf i.opcode i.len i.ops with
  | error e => rw [effectOf_of_firstOf_error s first] at effect; cases effect
  | ok a =>
    have acts := actsAs_effectOf left s first
    rw [effect] at acts
    exact ⟨a, rfl, acts.trans (advance_within left i.len u)⟩

/-- An instruction that fails: the decode action finds the error, or a later action does, and nothing shared has
changed. -/
theorem exec_fault_within {i : Instr} (left : Nat) (h : exec i s = .fault e) :
    firstAction i = .fault e ∨
    ∃ a, firstAction i = .next a ∧ TaskWithin 3 (.live left a) s (.failed (taskFault e)) s := by
  rw [← instr_eta i, exec_instr] at h
  rw [← instr_eta i]
  rcases execute_cases i.opcode i.len (effectOf i.opcode i.ops s) with ⟨short, failed⟩ | ⟨e', reaches, effect, failed⟩ |
    ⟨u, -, -, done⟩
  · rw [failed] at h
    cases h
    exact .inl (firstAction_of_lt _ short)
  · rw [failed] at h
    cases h
    rw [firstAction_of_le _ reaches]
    cases first : firstOf i.opcode i.len i.ops with
    | error e'' => rw [effectOf_of_firstOf_error s first] at effect; cases effect; exact .inl rfl
    | ok a =>
      have acts := actsAs_effectOf left s first
      rw [effect] at acts
      exact .inr ⟨a, rfl, acts⟩
  · rw [done] at h; cases h

/-! ## One turn of the sequential loop as one iteration -/

/-- The two actions every iteration starts with: read PC, and decode there. -/
theorem fetch_within (first : doAction left (.decode s.pc) s = .next (x, s)) (rest : TaskWithin k x s y t) :
    TaskWithin (k + 2) (.live left .fetchPc) s y t := .act rfl (.act first rest)

variable (sequential : s.run = .sequential)
include sequential

/-- A turn that goes on is one iteration of the task. -/
theorem iteration_of_next (left : Nat) (turn : step s = .next t) (goesOn : t.run = .sequential) :
    TaskWithin 7 (.live left .fetchPc) s (afterIteration left) t := by
  rw [step_of_takesTurn (by rw [sequential]; rfl)] at turn
  rcases sequentialTurn_next_cases turn with ⟨-, rfl⟩ | ⟨i, rest, decoded, executed⟩
  · cases goesOn
  · rw [withRun_self s _ sequential] at executed
    obtain ⟨a, first, acts⟩ := exec_next_within left executed
    exact fetch_within (doAction_decode_next left decoded first) acts

/-- A turn that halts ends the task with success, in the state it was in (R195). -/
theorem iteration_of_halted (left : Nat) (turn : step s = .next t) (halted : t.run = .halted) :
    TaskWithin 7 (.live left .fetchPc) s .returned s := by
  obtain ⟨at0, -⟩ := halted_of_step (by rw [sequential]; rfl) turn halted
  exact (fetch_within (doAction_decode_endOfStream left (decodeAt_of_atTerminator at0)) (.stay 0 _ s)).mono (by decide)

/-- A turn that fails stops the task with what it reports of the error, in the state it was in (R182, R201). -/
theorem iteration_of_fault (left : Nat) (turn : step s = .fault e) :
    TaskWithin 7 (.live left .fetchPc) s (.failed (taskFault e)) s := by
  rw [step_of_takesTurn (by rw [sequential]; rfl)] at turn
  rcases sequentialTurn_fault_cases turn with failed | ⟨i, rest, decoded, failed⟩
  · exact (fetch_within (doAction_decode_error left failed) (.stay 0 _ s)).mono (by decide)
  · rw [withRun_self s _ sequential] at failed
    rcases exec_fault_within left failed with first | ⟨a, first, acts⟩
    · exact (fetch_within (doAction_decode_fault left decoded first) (.stay 0 _ s)).mono (by decide)
    · exact (fetch_within (doAction_decode_next left decoded first) acts).mono (by decide)

omit sequential

/-! ## Runs -/

/-- A halted machine stays as it is, however often it is stepped (R131). -/
theorem run_of_halted (at0 : s.AtTerminator) (halted : s.run = .halted) (k : Nat) :
    Sys2Proof.core.run k s = .next s := by
  induction k with
  | zero => exact run_zero s
  | succ k ih =>
    have stepped := step_of_atTerminator (by rw [halted]; rfl) at0
    rw [withRun_self s _ halted] at stepped
    rw [run_succ_of_next k stepped, ih]

/-- A run that has not halted at its end has not halted in its first step. -/
theorem sequential_of_run {j : Nat} (sequential : s.run = .sequential) (stepped : step s = .next u)
    (reached : Sys2Proof.core.run j u = .next t) (goesOn : t.run = .sequential) : u.run = .sequential := by
  have takes : s.run.takesTurn = true := by rw [sequential]; rfl
  rcases sequentialTurn_run ((step_of_takesTurn takes).symm.trans stepped) with halted | running
  · obtain ⟨at0, rfl⟩ := halted_of_step takes stepped halted
    rw [run_of_halted (s := s.withRun .halted) at0 halted j] at reached
    cases reached
    cases goesOn
  · exact running

/-- What a task with `n` iterations is after `j` of them. -/
def afterIterations (n j : Nat) : Task := if j < n then .live (n - j) .fetchPc else .returned

/-- `j` steps of the sequential loop are `j` iterations of the task, of at most seven actions each. -/
theorem run_within {n j : Nat} (positive : 1 ≤ n) (enough : j ≤ n) (sequential : s.run = .sequential)
    (reached : Sys2Proof.core.run j s = .next t) (goesOn : t.run = .sequential) :
    TaskWithin (7 * j) (.live n .fetchPc) s (afterIterations n j) t := by
  induction j generalizing s n with
  | zero =>
    cases reached
    rw [afterIterations, if_pos (show 0 < n from positive)]
    exact .stay _ _ t
  | succ j ih =>
    obtain ⟨u, stepped, reached⟩ := run_succ_next reached
    have running := sequential_of_run sequential stepped reached goesOn
    have first := iteration_of_next sequential n stepped running
    by_cases single : n ≤ 1
    · obtain rfl : j = 0 := by omega
      cases reached
      rw [afterIterations, if_neg (by omega)]
      rwa [afterIteration, if_pos single] at first
    · rw [afterIteration, if_neg single] at first
      have same : afterIterations (n - 1) j = afterIterations n (j + 1) := by
        simp only [afterIterations, Nat.lt_sub_iff_add_lt, Nat.sub_sub, Nat.add_comm]
      rw [← same]
      exact first.trans (ih (by omega) (by omega) running reached)

/-- Settles O58. The sequential steps are iterations of the task, and the next step says how the task ends. -/
theorem singleTaskRunsSequentially : Obligations.SingleTaskRunsSequentially := by
  intro n j s t positive sequential reached goesOn
  have before (fewer : j < n) : TaskWithin (7 * j) (.live n .fetchPc) s (.live (n - j) .fetchPc) t := by
    simpa only [afterIterations, if_pos fewer] using run_within positive fewer.le sequential reached goesOn
  constructor
  · intro ends
    have within : TaskWithin (7 * n) (.live n .fetchPc) s .returned t := by
      rcases ends with rfl | ⟨fewer, h, stepped, halted⟩
      · simpa only [afterIterations, Nat.lt_irrefl, if_false] using
          run_within positive (Nat.le_refl j) sequential reached goesOn
      · exact ((before fewer).trans (iteration_of_halted goesOn (n - j) stepped halted)).mono (by omega)
    obtain ⟨k, d, hk, run⟩ := run_of_taskWithin within s.draws
    exact ⟨k, _, hk, run, rfl, rfl, rfl⟩
  · intro e fewer failed
    have within := ((before fewer).trans (iteration_of_fault goesOn (n - j) failed)).mono (j := 7 * n) (by omega)
    obtain ⟨k, d, hk, run⟩ := run_of_taskWithin within s.draws
    exact ⟨k, _, hk, run, rfl, rfl, fun q _ => rfl⟩

end Sys2Proof.Machine
end

section
/-! What an abort leaves (60_exceptions.md R178, R184). -/

namespace Sys2Proof.Machine

variable {s : State} {e : Fault}

theorem afterFault_of_aborts (h : e.aborts s.run = true) : s.afterFault e = none := if_pos h

/-- Settles O59. After an abort, of the step itself or of a task, no machine is left; otherwise the same one is. -/
theorem abortLeavesNoMachine : Obligations.AbortLeavesNoMachine := by
  refine fun s => ⟨fun reason => ?_, fun ts e run aborted => ?_, fun e error noTask => ?_,
    fun fuel reason takes ends => ?_⟩
  · exact afterFault_of_aborts (aborts_iff.mpr (.inl ⟨reason, rfl⟩))
  · exact afterFault_of_aborts (aborts_iff.mpr (.inr ⟨ts, run, aborted⟩))
  · have stands : e.aborts s.run = false := by
      rw [Bool.eq_false_iff]
      intro aborts
      rcases aborts_iff.mp aborts with ⟨reason, abort⟩ | ⟨ts, run, aborted⟩
      · exact error reason abort
      · exact noTask ts run aborted
    exact ⟨s.withRun .idle, afterFault_some_iff.mpr ⟨stands, rfl⟩, rfl, rfl, fun q _ => rfl⟩
  · obtain ⟨n, t, reached, -, ⟨-, out⟩ | ⟨hn, last⟩⟩ := runSequential_cases fuel s takes
    · rw [ends] at out; cases out
    · rw [ends] at last
      rcases last with ⟨h, halted, -⟩ | ⟨e, failed, -⟩ | ⟨reason', same, stepped⟩
      · cases halted
      · cases failed
      · cases same
        exact ⟨n, t, hn, reached, stepped⟩

end Sys2Proof.Machine
end
